-- ==== Sys2Proof/Word.lean ====
section
/-! DEFINITION. The machine's data widths (00_scope.md R5, R7): every value is an unsigned number of a fixed width. -/

namespace Sys2Proof

/-- A general register, a timer, a memory cell, an immediate `nn`: 8 bits (R5 `XLEN`). -/
abbrev Byte := BitVec 8

/-- An instruction word, `pc`, `I`, a stack entry: 16 bits (R5 `ILEN`, `PC_BITS`, `I_BITS`). -/
abbrev Word := BitVec 16

/-- A 4-bit field of an instruction word (R12 "Nibble"). -/
abbrev Nibble := BitVec 4

/-- A general register's index: the 4-bit field `x` or `y` (R10, R21), so every index is in range. -/
abbrev Reg := Nibble

/-- The 12-bit address field `nnn` (R10, R92). -/
abbrev Addr := BitVec 12

/-- `VF`, the second name of `V[15]` (R21, R22; R5 `FLAG_REG`). -/
abbrev VF : Reg := 0xF#4

end Sys2Proof
end

