-- ==== Sys2Proof/Machine/Flags.lean ====
section
/-! DEFINITION. Every value an instruction writes to the flag register `VF` as a side effect (10_state.md R22: always 0
or 1). -/

namespace Sys2Proof.Machine

/-- A flag's byte: 1 or 0. -/
def flag (b : Bool) : Byte := if b then 1#8 else 0#8

/-- ADD: 1 when the 9-bit sum is above 255 (R160, R168). -/
def carryFlag (a b : Byte) : Byte := flag (decide (a.toNat + b.toNat > 255))

/-- SUB, SUBN: 0 when `a - b` borrows, that is when `a < b` (R160, R169, R171). -/
def notBorrowFlag (a b : Byte) : Byte := flag (!decide (a.toNat < b.toNat))

/-- SHR: `Vx & 1`, the bit shifted out (R170). -/
def lowBitFlag (a : Byte) : Byte := a &&& 1#8

/-- SHL: `(Vx >> 7) & 1`, the bit shifted out (R172). -/
def highBitFlag (a : Byte) : Byte := (a >>> 7) &&& 1#8

/-- DRW: 1 when a lit cell was toggled (R212). -/
def collisionFlag (hit : Bool) : Byte := flag hit

end Sys2Proof.Machine
end

