-- ==== Sys2Proof/Machine/FrameBuffer.lean ====
section
/-! DEFINITION. The framebuffer latch `FB` (10_state.md R33, 44_display.md R210): 64 columns by 32 rows of one bit. -/

namespace Sys2Proof.Machine

/-- `FB`, one 64-bit row per `y`; bit `x` of a row is the cell at column `x`. -/
abbrev FrameBuffer := Vector (BitVec 64) 32

/-- A cell's position: column 0 to 63, row 0 to 31. -/
structure Pixel where
  col : Fin 64
  row : Fin 32
  deriving DecidableEq, Repr

/-- R33, R210: the cell at column `x` and row `y` is `FB[x + 64*y]`. -/
def Pixel.index (p : Pixel) : Nat := p.col.val + 64 * p.row.val

/-- The cell of a framebuffer index 0 to 2047. -/
def Pixel.ofIndex (k : Fin 2048) : Pixel := ⟨Fin.ofNat 64 k.val, Fin.ofNat 32 (k.val / 64)⟩

/-- Whether a cell is lit (R12). -/
def FrameBuffer.lit (fb : FrameBuffer) (p : Pixel) : Bool := (fb.get p.row).getLsbD p.col.val

/-- `FB[k] <- FB[k] ^ 1` (R212). -/
def FrameBuffer.toggle (fb : FrameBuffer) (p : Pixel) : FrameBuffer :=
  fb.set p.row.val (fb.get p.row ^^^ BitVec.twoPow 64 p.col.val)

/-- All 2048 cells unlit (R211, R37). -/
def FrameBuffer.clear : FrameBuffer := Vector.replicate 32 0#64

end Sys2Proof.Machine
end

