-- ==== Sys2Proof/Config.lean ====
section
/-! DEFINITION. The parameters of 00_scope.md R5 that the other files compute with, and the one free value of the
machine. The other open parameter of R6, `GLYPH_TABLE`, is an argument of `Sys2Proof.Machine.State.resetWith`. -/

namespace Sys2Proof.Config

/-- R5 `MEM_SIZE`: bytes of memory, addresses 0 to 4095. -/
@[simp] def memSize : Nat := 4096

/-- R5 `GLYPH_BYTES`: the glyph table is at addresses 0 to 79. -/
@[simp] def glyphBytes : Nat := 80

/-- R5 `PROG_BASE`: where `load` puts the first byte. -/
@[simp] def progBase : Nat := 512

/-- R5 `PROG_MAX`: the most bytes `load` accepts, `MEM_SIZE - PROG_BASE`. -/
@[simp] def progMax : Nat := 3584

/-- The byte the external random source gives at its `k`-th draw (R6 (b), R35 (a), R174). DESIGN CHOICE, safe: a
free value, log entry 2. It has no body, so that nothing can be proved of it. -/
opaque randomByte : Nat → Byte

end Sys2Proof.Config
end

