-- ==== Sys2Proof/Machine/Glyph.lean ====
section
/-! DEFINITION. The glyph table (00_scope.md R6 (a), 10_state.md R31): the parameter's type and its default, and the reset contents
of memory (R37). -/

namespace Sys2Proof.Machine

/-- What a `GLYPH_TABLE` is: 80 bytes, 16 glyphs of 5 (R6 (a), R31). Which 80 is an argument of the model
(`Memory.reset`, `State.resetWith`). -/
abbrev GlyphTable := Vector Byte Config.glyphBytes

/-- The rows of the default table, glyph by glyph (R31). -/
def defaultGlyphRows : List Byte :=
  [0xF0, 0x90, 0x90, 0x90, 0xF0] ++ -- 0
  [0x20, 0x60, 0x20, 0x20, 0x70] ++ -- 1
  [0xF0, 0x10, 0xF0, 0x80, 0xF0] ++ -- 2
  [0xF0, 0x10, 0xF0, 0x10, 0xF0] ++ -- 3
  [0x90, 0x90, 0xF0, 0x10, 0x10] ++ -- 4
  [0xF0, 0x80, 0xF0, 0x10, 0xF0] ++ -- 5
  [0xF0, 0x80, 0xF0, 0x90, 0xF0] ++ -- 6
  [0xF0, 0x10, 0x20, 0x40, 0x40] ++ -- 7
  [0xF0, 0x90, 0xF0, 0x90, 0xF0] ++ -- 8
  [0xF0, 0x90, 0xF0, 0x10, 0xF0] ++ -- 9
  [0xF0, 0x90, 0xF0, 0x90, 0x90] ++ -- A
  [0xE0, 0x90, 0xE0, 0x90, 0xE0] ++ -- B
  [0xF0, 0x80, 0x80, 0x80, 0xF0] ++ -- C
  [0xE0, 0x90, 0x90, 0x90, 0xE0] ++ -- D
  [0xF0, 0x80, 0xF0, 0x80, 0xF0] ++ -- E
  [0xF0, 0x80, 0xF0, 0x80, 0x80]    -- F

/-- The default of the argument, which R31 gives from general knowledge: the conventional font. PRESUMED, unsafe where a
claim rests on a glyph's shape in the machine that has it: log entry 1. -/
def defaultGlyphTable : GlyphTable := Vector.ofFn fun k => defaultGlyphRows.getD k.val 0#8

/-- What an address holds after `reset`, and so what an unlisted address reads as: the glyph table at 0 to 79, and 0
elsewhere (R37; the zeros at 80 to 4095 are the spec's decision D12, log entry 4; those from 4096 up, where there is no memory, are a
DESIGN CHOICE, log entry 18). -/
def resetByte (glyphs : GlyphTable) (a : Nat) : Byte := glyphs[a]?.getD 0#8

end Sys2Proof.Machine
end

