-- ==== Sys2Proof/Machine/Memory.lean ====
section
/-! DEFINITION. The one address space (20_memory.md R60): 4096 bytes, held as the list of the bytes that differ from
their reset contents. -/

namespace Sys2Proof.Machine

/-- `Mem` (R30). -/
structure Memory where
  /-- `GLYPH_TABLE`, the 80 bytes this machine's memory holds at 0 to 79 after every reset. A parameter of the machine
  (R6 (a)): no operation changes it. -/
  glyphs : GlyphTable
  /-- the bytes that differ from their reset contents -/
  cells : List Host.Cell
  deriving DecidableEq, Repr

/-- The canonical form: addresses strictly rising, each below 4096 (R60), and no entry equal to what an unlisted
address reads as. -/
abbrev Memory.wf (m : Memory) : Prop :=
  m.cells.Pairwise (fun c d => c.1 < d.1) ∧ ∀ c ∈ m.cells, c.1 < Config.memSize ∧ c.2 ≠ resetByte m.glyphs c.1

/-- Memory as `reset` leaves it (R37), for a given glyph table. -/
def Memory.reset (glyphs : GlyphTable) : Memory := ⟨glyphs, []⟩

/-- The byte listed for an address. -/
def lookupCell (a : Nat) : List Host.Cell → Option Byte
  | [] => none
  | c :: cs => if c.1 = a then some c.2 else lookupCell a cs

/-- An entry put before the first higher address. -/
def insertCell (c : Host.Cell) : List Host.Cell → List Host.Cell
  | [] => [c]
  | d :: ds => if c.1 < d.1 then c :: d :: ds else d :: insertCell c ds

/-- `MemRead(a, 1)` of R9, for an address the caller has checked (R190: an instruction checks its highest address
before any byte moves, so that R9's own `raise` is never reached). -/
def Memory.read (m : Memory) (a : Nat) : Byte := (lookupCell a m.cells).getD (resetByte m.glyphs a)

/-- `MemWrite(a, 1, b)` of R9, for an address the caller has checked. It "changes exactly that byte" (R67). -/
def Memory.write (m : Memory) (a : Nat) (b : Byte) : Memory :=
  let others := m.cells.filter fun c => c.1 != a
  { m with cells := if b = resetByte m.glyphs a then others else insertCell (a, b) others }

/-- A sequence of single bytes at rising addresses (R190). -/
def Memory.writeBytes (m : Memory) (a : Nat) : List Byte → Memory
  | [] => m
  | b :: bs => (m.write a b).writeBytes (a + 1) bs

/-- `len` single bytes read at rising addresses (R190). -/
def Memory.readBytes (m : Memory) (a len : Nat) : List Byte := (List.range len).map fun k => m.read (a + k)

end Sys2Proof.Machine
end

