-- ==== Sys2Proof/Machine/State.lean ====
section
/-! DEFINITION. The machine's whole state (10_state.md R20), the reset state (R37), and the reasons an operation can
stop. -/

namespace Sys2Proof.Machine

/-- The six faults, by the names of 60_exceptions.md R240 (codes: `Cause.code`). -/
inductive Cause where
  /-- 1: the fetched word matches no form (R241). -/
  | illegalInstruction
  /-- 2: `pc > 4094` at the fetch (R242). -/
  | fetchOutOfBounds
  /-- 3: CALL with `SP = 16` (R243). -/
  | stackOverflow
  /-- 4: RET with `SP = 0` (R244). -/
  | stackUnderflow
  /-- 5: DRW, BCD, STORE or LOAD reaching above 4095 (R245). -/
  | memoryOutOfBounds
  /-- 6: SKP or SKNP with `V[x] > 15` (R246). -/
  | keyIndexOutOfRange
  deriving DecidableEq, Repr

/-- What the fault latch records (R34, R240). -/
structure FaultRecord where
  cause : Cause
  /-- an unbounded natural: a data address reaches 65550 (R245) -/
  info : Nat
  /-- the value `pc` had before the faulting tick -/
  addr : Word
  deriving DecidableEq, Repr

/-- The complete state of the CORE (R20), and one field of the model's own, `draws`. -/
structure State where
  /-- `Mem` (R30) -/
  mem : Memory
  /-- `V[0]` to `V[15]` (R21) -/
  v : Vector Byte 16
  /-- `I`, the index register (R25) -/
  i : Word
  /-- the program counter (R23) -/
  pc : Word
  /-- `Stack[0]` to `Stack[15]` (R27) -/
  stack : Vector Word 16
  /-- `SP`, a number in 0 to 16 (R26) -/
  sp : Fin 17
  /-- `DT`, the delay timer (R28) -/
  dt : Byte
  /-- `ST`, the sound timer (R29) -/
  st : Byte
  /-- `Key[0]` to `Key[15]`, true for pressed (R32) -/
  key : Vector Bool 16
  /-- `FB` (R33) -/
  fb : FrameBuffer
  /-- `FAULT`, `none` or a record (R34) -/
  fault : Option FaultRecord
  /-- How many bytes have been drawn from the external random source. THE MODEL'S OWN, no state of the CORE (R35
  (a)): it makes each draw a fresh free value (log entry 2). -/
  draws : Nat
  deriving DecidableEq, Repr

/-- No step of this machine stops without a next state: R247 describes how each of the six faults is entered, and R125
what a tick does afterwards, so both are next states (log entry 3). -/
inductive Fault : Type where
  deriving DecidableEq, Repr

/-- Why an operation is refused. -/
inductive Refusal where
  /-- Raised by an arm of `exec` that has no meaning yet. There is none. Safe. -/
  | notModelled (mnemonic : String)
  /-- Raised by the host operation `load` with an image of more than 3584 bytes (70_reset_and_hazards.md R283): "refused
  as a whole". No step raises it. Safe. -/
  | imageTooLong (len : Nat)
  deriving DecidableEq, Repr

/-- R37: the state after `reset`, and of a CORE never reset (R281), for a given `GLYPH_TABLE` (R6 (a): "what a model takes
as an argument"). `draws` starts at 0 (DESIGN CHOICE, log entry 2). -/
def State.resetWith (glyphs : GlyphTable) : State where
  mem := Memory.reset glyphs
  v := Vector.replicate 16 0#8
  i := 0#16
  pc := 512#16
  stack := Vector.replicate 16 0#16
  sp := 0
  dt := 0#8
  st := 0#8
  key := Vector.replicate 16 false
  fb := FrameBuffer.clear
  fault := none
  draws := 0

/-- The reset state of the machine that has the default table of R31 (PRESUMED, log entry 1). -/
def State.reset : State := State.resetWith defaultGlyphTable

/-- What an operation answers. -/
abbrev Result := Host.Outcome State Fault Refusal

end Sys2Proof.Machine
end

