-- ==== Sys2Proof/Machine/Operands.lean ====
section
/-! DEFINITION. The operand forms: how an instruction's fields and registers become the values and the addresses it
works on. -/

namespace Sys2Proof.Machine

/-- `V[r]` (R8, R21). -/
def State.getV (s : State) (r : Reg) : Byte := s.v[r.toNat]'r.isLt

/-- `zext_16(nnn)` (R92). -/
def zextAddr (nnn : Addr) : Word := nnn.setWidth 16

/-- `zext_16` of a general register's value (R144, R192, R193). -/
def zextByte (b : Byte) : Word := b.setWidth 16

/-- The one addressing mode: `I + k`, an unbounded natural (20_memory.md R66, 43_index_memory.md R190). -/
def State.indexAddr (s : State) (k : Nat) : Nat := s.i.toNat + k

/-- `V[0]` to `V[x]`, the bytes STORE writes (R195). -/
def State.regsUpTo (s : State) (x : Reg) : List Byte := s.v.toList.take (x.toNat + 1)

/-- BCD: the hundreds, tens and ones digit of a register's value (R194). -/
def bcdDigits (a : Byte) : List Byte := [a / 100#8, a / 10#8 % 10#8, a % 10#8]

/-- GLYPH: five times the whole 8-bit value (R193). -/
def glyphAddr (a : Byte) : Word := zextByte a * 5#16

/-- The key a register names: `none` when its value is above 15; it is not masked (R220). -/
def keyIndex (a : Byte) : Option (Fin 16) :=
  if h : a.toNat < 16 then some ⟨a.toNat, h⟩ else none

/-- WAITK: "the least such k" with `Key[k] = 1` (R223). -/
def leastPressed (key : Vector Bool 16) : Option Nat := key.toList.findIdx? fun pressed => pressed

/-- R210, R212: the cell under column `c` and row `r` of a sprite drawn at `(vx, vy)`, the column modulo 64 and the row
modulo 32. -/
def spritePixel (vx vy : Byte) (r c : Nat) : Pixel := ⟨Fin.ofNat 64 (vx.toNat + c), Fin.ofNat 32 (vy.toNat + r)⟩

/-- R210: column `c` of a sprite byte is bit `7 - c`, the most significant bit first (PRESUMED, log entry 5). -/
def spriteBit (b : Byte) (c : Nat) : Bool := b.getLsbD (7 - c)

/-- The cells under the set bits of row `r` of a sprite, columns ascending (R212). -/
def spriteRowPixels (vx vy : Byte) (r : Nat) (b : Byte) : List Pixel :=
  ((List.range 8).filter fun c => spriteBit b c).map fun c => spritePixel vx vy r c

/-- The cells under the set bits of an `n`-row sprite read at `I`, rows ascending (R212). -/
def State.spritePixels (s : State) (x y : Reg) (n : Nibble) : List Pixel :=
  (List.range n.toNat).flatMap fun r => spriteRowPixels (s.getV x) (s.getV y) r (s.mem.read (s.indexAddr r))

end Sys2Proof.Machine
end

