-- ==== Sys2Proof/Machine/Ops.lean ====
section
/-! DEFINITION. The named operations over the state that the meanings share: register and memory updates, the advance
of `pc`, skips, the stack, the bound check of a data access, drawing, the random draw, and taking a fault. A meaning is
given the state BEFORE the tick and begins with `State.advance` (40_tick_cycle.md R122); a fault is raised on the state
before the tick (log entry 6). -/

namespace Sys2Proof.Machine

/-! ### Single pieces of state -/

/-- `V[r] <- b`. -/
def State.setV (s : State) (r : Reg) (b : Byte) : State := { s with v := s.v.set r.toNat b r.isLt }

/-- `pc <- a`. -/
def State.setPc (s : State) (a : Word) : State := { s with pc := a }

/-- `I <- a`. -/
def State.setI (s : State) (a : Word) : State := { s with i := a }

/-- `DT <- b`. -/
def State.setDt (s : State) (b : Byte) : State := { s with dt := b }

/-- `ST <- b`. -/
def State.setSt (s : State) (b : Byte) : State := { s with st := b }

/-- `FB <- fb`. -/
def State.setFb (s : State) (fb : FrameBuffer) : State := { s with fb := fb }

/-! ### The program counter -/

/-- The fetch's `pc <- pc + 2`, modulo 65536 (R24, R122). -/
def State.advance (s : State) : State := s.setPc (s.pc + 2#16)

/-- A skip: `pc <- (pc + 2) mod 65536` on top of the fetch's (41_control_flow.md R140), when `c` holds. -/
def State.skipIf (s : State) (c : Bool) : State := if c then s.setPc (s.pc + 2#16) else s

/-- WAITK's `pc <- pc - 2`, which undoes the fetch's +2 (R223). -/
def State.rewind (s : State) : State := s.setPc (s.pc - 2#16)

/-! ### Memory -/

/-- `bs` written at `I` upward, one byte at a time (R190). -/
def State.storeAtIndex (s : State) (bs : List Byte) : State := { s with mem := s.mem.writeBytes (s.indexAddr 0) bs }

/-- `V[k] <- MemRead(I + k, 1)` for `k` in 0 to `x`; the registers above `x` keep their values (R196). -/
def State.loadFromIndex (s : State) (x : Reg) : State :=
  { s with v := Vector.ofFn fun k => if k.val ≤ x.toNat then s.mem.read (s.indexAddr k.val) else s.v.get k }

/-! ### The stack (R26, R27) -/

/-- "Push writes at the pointer and increments it"; `none` when the stack is full. -/
def State.push (s : State) (a : Word) : Option State :=
  if h : s.sp.val < 16 then
    some { s with stack := s.stack.set s.sp.val a h, sp := ⟨s.sp.val + 1, Nat.succ_lt_succ h⟩ }
  else none

/-- "Pop decrements the pointer then reads"; the entry keeps its value; `none` when the stack is empty. -/
def State.pop (s : State) : Option (Word × State) :=
  if h : s.sp.val ≠ 0 then
    some (s.stack[s.sp.val - 1]'(by have := s.sp.isLt; omega),
      { s with sp := ⟨s.sp.val - 1, by have := s.sp.isLt; omega⟩ })
  else none

/-! ### Drawing (R212) -/

/-- One set bit of the sprite: note whether its cell was lit, then toggle it. -/
def drawPixel (acc : FrameBuffer × Bool) (p : Pixel) : FrameBuffer × Bool :=
  (acc.1.toggle p, acc.2 || acc.1.lit p)

/-- The set bits in order, from no collision. -/
def drawPixels (fb : FrameBuffer) (ps : List Pixel) : FrameBuffer × Bool := ps.foldl drawPixel (fb, false)

/-! ### The random source (R174) -/

/-- `RandomByte()`: the next free byte, and the state with the draw counted. -/
def State.drawRandom (s : State) : Byte × State := (Config.randomByte s.draws, { s with draws := s.draws + 1 })

/-! ### Faults (60_exceptions.md) -/

/-- R240: the number of a fault. -/
def Cause.code : Cause → Nat
  | .illegalInstruction => 1
  | .fetchOutOfBounds => 2
  | .stackOverflow => 3
  | .stackUnderflow => 4
  | .memoryOutOfBounds => 5
  | .keyIndexOutOfRange => 6

/-- TAKING A FAULT (R247), on the state before the tick: `FAULT <- (cause, info, addr)` with `addr` the `pc` before the
tick, and nothing else changes. -/
def raise (cause : Cause) (info : Nat) (s : State) : Result := .next { s with fault := some ⟨cause, info, s.pc⟩ }

/-- The way out of a fault: there is no return from one (R249); `reset` alone clears the latch. It puts every piece of
state to its reset value (70_reset_and_hazards.md R280), reloading the machine's own glyph table, and does not touch the
random source. -/
def resetCore (s : State) : State := { State.resetWith s.mem.glyphs with draws := s.draws }

/-- R190, R245: the check made before any byte moves. An access to the `len` bytes at `I` (`len` may be 0: DRW with
`n = 0` makes none) whose highest address `I + len - 1` is above 4095 raises `MemoryOutOfBounds` on the state before the
tick, with that address; otherwise the instruction ends in `done`. -/
def checkAccess (len : Nat) (s done : State) : Result :=
  if len ≠ 0 ∧ 4095 < s.indexAddr (len - 1) then raise .memoryOutOfBounds (s.indexAddr (len - 1)) s
  else .next done

end Sys2Proof.Machine
end

