-- ==== Sys2Proof/Machine/Alu.lean ====
section
/-! DEFINITION. Register arithmetic and logic (42_alu.md). Where an instruction writes both `Vx` and `VF`, the two
writes stand in the order R161 gives, each seeing the one before it (the spec's decision D17, log entry 8). -/

namespace Sys2Proof.Machine

/-- R162. -/
def execLdi (x : Reg) (nn : Byte) (s : State) : Result := .next (s.advance.setV x nn)

/-- R163: no flag is written. -/
def execAddi (x : Reg) (nn : Byte) (s : State) : Result := .next (s.advance.setV x (s.getV x + nn))

/-- R164. -/
def execMov (x y : Reg) (s : State) : Result := .next (s.advance.setV x (s.getV y))

/-- R165: no flag is written. -/
def execOr (x y : Reg) (s : State) : Result := .next (s.advance.setV x (s.getV x ||| s.getV y))

/-- R166: no flag is written. -/
def execAnd (x y : Reg) (s : State) : Result := .next (s.advance.setV x (s.getV x &&& s.getV y))

/-- R167: no flag is written. -/
def execXor (x y : Reg) (s : State) : Result := .next (s.advance.setV x (s.getV x ^^^ s.getV y))

/-- R168: result first, flag second, both from the old values. -/
def execAdd (x y : Reg) (s : State) : Result :=
  .next ((s.advance.setV x (s.getV x + s.getV y)).setV VF (carryFlag (s.getV x) (s.getV y)))

/-- R169: result first, flag second, both from the old values. -/
def execSub (x y : Reg) (s : State) : Result :=
  .next ((s.advance.setV x (s.getV x - s.getV y)).setV VF (notBorrowFlag (s.getV x) (s.getV y)))

/-- R170: flag first; the shift reads `Vx` again. -/
def execShr (x : Reg) (s : State) : Result :=
  let t := s.advance.setV VF (lowBitFlag (s.getV x))
  .next (t.setV x (t.getV x >>> 1))

/-- R171: the subtraction is `Vy - Vx`, the destination still `Vx`. -/
def execSubn (x y : Reg) (s : State) : Result :=
  .next ((s.advance.setV x (s.getV y - s.getV x)).setV VF (notBorrowFlag (s.getV y) (s.getV x)))

/-- R172: flag first; the shift reads `Vx` again. -/
def execShl (x : Reg) (s : State) : Result :=
  let t := s.advance.setV VF (highBitFlag (s.getV x))
  .next (t.setV x (t.getV x <<< 1))

/-- R174: one byte is drawn, also when `nn = 0` (D19). -/
def execRnd (x : Reg) (nn : Byte) (s : State) : Result :=
  let d := s.advance.drawRandom
  .next (d.2.setV x (d.1 &&& nn))

end Sys2Proof.Machine
end

