-- ==== Sys2Proof/Syntax.lean ====
section
/-! DEFINITION. The 35 instruction forms of 30_encoding.md R94, one constructor per row of `opcode_table.json`, in
the table's order, each with the operand fields its syntax names. -/

namespace Sys2Proof

/-- An instruction. `shr` and `shl` carry no `y`: R96 gives all sixteen values of that field one meaning. -/
inductive Instr where
  /-- row 1, `0000` (R126) -/
  | nop
  /-- row 2, `00E0` (R211) -/
  | cls
  /-- row 3, `00EE` (R141) -/
  | ret
  /-- row 4, `1nnn` (R142) -/
  | jp (nnn : Addr)
  /-- row 5, `2nnn` (R143) -/
  | call (nnn : Addr)
  /-- row 6, `3xnn` (R145) -/
  | sei (x : Reg) (nn : Byte)
  /-- row 7, `4xnn` (R146) -/
  | snei (x : Reg) (nn : Byte)
  /-- row 8, `5xy0` (R147) -/
  | ser (x y : Reg)
  /-- row 9, `6xnn` (R162) -/
  | ldi (x : Reg) (nn : Byte)
  /-- row 10, `7xnn` (R163) -/
  | addi (x : Reg) (nn : Byte)
  /-- row 11, `8xy0` (R164) -/
  | mov (x y : Reg)
  /-- row 12, `8xy1` (R165) -/
  | or (x y : Reg)
  /-- row 13, `8xy2` (R166) -/
  | and (x y : Reg)
  /-- row 14, `8xy3` (R167) -/
  | xor (x y : Reg)
  /-- row 15, `8xy4` (R168) -/
  | add (x y : Reg)
  /-- row 16, `8xy5` (R169) -/
  | sub (x y : Reg)
  /-- row 17, `8xy6` (R170) -/
  | shr (x : Reg)
  /-- row 18, `8xy7` (R171) -/
  | subn (x y : Reg)
  /-- row 19, `8xyE` (R172) -/
  | shl (x : Reg)
  /-- row 20, `9xy0` (R148) -/
  | sner (x y : Reg)
  /-- row 21, `Annn` (R191) -/
  | ldidx (nnn : Addr)
  /-- row 22, `Bnnn` (R144) -/
  | jpv0 (nnn : Addr)
  /-- row 23, `Cxnn` (R174) -/
  | rnd (x : Reg) (nn : Byte)
  /-- row 24, `Dxyn` (R212) -/
  | drw (x y : Reg) (n : Nibble)
  /-- row 25, `Ex9E` (R221) -/
  | skp (x : Reg)
  /-- row 26, `ExA1` (R222) -/
  | sknp (x : Reg)
  /-- row 27, `Fx07` (R224) -/
  | getdt (x : Reg)
  /-- row 28, `Fx0A` (R223) -/
  | waitk (x : Reg)
  /-- row 29, `Fx15` (R225) -/
  | setdt (x : Reg)
  /-- row 30, `Fx18` (R226) -/
  | setst (x : Reg)
  /-- row 31, `Fx1E` (R192) -/
  | addidx (x : Reg)
  /-- row 32, `Fx29` (R193) -/
  | glyph (x : Reg)
  /-- row 33, `Fx33` (R194) -/
  | bcd (x : Reg)
  /-- row 34, `Fx55` (R195) -/
  | store (x : Reg)
  /-- row 35, `Fx65` (R196) -/
  | load (x : Reg)
  deriving DecidableEq, Repr

end Sys2Proof
end

