-- ==== Sys2Proof/WellFormed.lean ====
section
/-! DEFINITION. Which operand numbers an instruction may carry (30_encoding.md R92, R100: operands "must fit their
field"). `Instr` already types each operand by its field's width, so every `Instr` is well formed
(`Laws.OperandsFit`); the checks refuse something where operands come as plain numbers, in the assembler
(`OpcodeRow.assemble`). -/

namespace Sys2Proof

/-- An operand field of the instruction word (R10). -/
inductive Slot where
  | x | y | n | nn | nnn
  deriving DecidableEq, Repr

/-- The field's lowest bit in the word (R10, R91). -/
def Slot.lo : Slot → Nat
  | .x => 8
  | .y => 4
  | .n => 0
  | .nn => 0
  | .nnn => 0

/-- The field's width in bits (R10, R91). -/
def Slot.width : Slot → Nat
  | .x => 4
  | .y => 4
  | .n => 4
  | .nn => 8
  | .nnn => 12

/-- R92, R100: a register index or a row count is 0 to 15, `nn` is 0 to 255, `nnn` is 0 to 4095. -/
def Slot.fits (f : Slot) (k : Nat) : Bool := decide (k < 2 ^ f.width)

/-- Every operand number fits its field. -/
def operandsFit (ops : List (Slot × Nat)) : Bool := ops.all fun o => o.1.fits o.2

/-- The operands in the order of R94's syntax column. -/
def Instr.operands : Instr → List (Slot × Nat)
  | .nop => []
  | .cls => []
  | .ret => []
  | .jp nnn => [(.nnn, nnn.toNat)]
  | .call nnn => [(.nnn, nnn.toNat)]
  | .sei x nn => [(.x, x.toNat), (.nn, nn.toNat)]
  | .snei x nn => [(.x, x.toNat), (.nn, nn.toNat)]
  | .ser x y => [(.x, x.toNat), (.y, y.toNat)]
  | .ldi x nn => [(.x, x.toNat), (.nn, nn.toNat)]
  | .addi x nn => [(.x, x.toNat), (.nn, nn.toNat)]
  | .mov x y => [(.x, x.toNat), (.y, y.toNat)]
  | .or x y => [(.x, x.toNat), (.y, y.toNat)]
  | .and x y => [(.x, x.toNat), (.y, y.toNat)]
  | .xor x y => [(.x, x.toNat), (.y, y.toNat)]
  | .add x y => [(.x, x.toNat), (.y, y.toNat)]
  | .sub x y => [(.x, x.toNat), (.y, y.toNat)]
  | .shr x => [(.x, x.toNat)]
  | .subn x y => [(.x, x.toNat), (.y, y.toNat)]
  | .shl x => [(.x, x.toNat)]
  | .sner x y => [(.x, x.toNat), (.y, y.toNat)]
  | .ldidx nnn => [(.nnn, nnn.toNat)]
  | .jpv0 nnn => [(.nnn, nnn.toNat)]
  | .rnd x nn => [(.x, x.toNat), (.nn, nn.toNat)]
  | .drw x y n => [(.x, x.toNat), (.y, y.toNat), (.n, n.toNat)]
  | .skp x => [(.x, x.toNat)]
  | .sknp x => [(.x, x.toNat)]
  | .getdt x => [(.x, x.toNat)]
  | .waitk x => [(.x, x.toNat)]
  | .setdt x => [(.x, x.toNat)]
  | .setst x => [(.x, x.toNat)]
  | .addidx x => [(.x, x.toNat)]
  | .glyph x => [(.x, x.toNat)]
  | .bcd x => [(.x, x.toNat)]
  | .store x => [(.x, x.toNat)]
  | .load x => [(.x, x.toNat)]

/-- An instruction is well formed when each operand fits its field. -/
def Instr.wellFormed (i : Instr) : Bool := operandsFit i.operands

end Sys2Proof
end

