-- ==== Sys2Proof/Decode.lean ====
section
/-! DEFINITION. From words to instructions and back (30_encoding.md): the fields of a word, the opcode map of R94 as
data, the decoder, the byte-level decoder, the encoder, and the assembler of one instruction. The decoder is written
from the patterns of R94 and does not consult the table; that the two agree is a statement. -/

namespace Sys2Proof

/-! ### Fields of the word (00_scope.md R10, 30_encoding.md R91, R92) -/

/-- `d1 = w[15:12]`, the opcode group. -/
def fieldD1 (w : Word) : Nibble := w.extractLsb' 12 4

/-- `x = w[11:8]`. -/
def fieldX (w : Word) : Reg := w.extractLsb' 8 4

/-- `y = w[7:4]`. -/
def fieldY (w : Word) : Reg := w.extractLsb' 4 4

/-- `n = w[3:0]`. -/
def fieldN (w : Word) : Nibble := w.extractLsb' 0 4

/-- `nn = w[7:0]`. -/
def fieldNN (w : Word) : Byte := w.extractLsb' 0 8

/-- `nnn = w[11:0]`. -/
def fieldNNN (w : Word) : Addr := w.extractLsb' 0 12

/-- 20_memory.md R62, 40_tick_cycle.md R121: the byte at the lower address is the upper byte of the word. -/
def composeWord (hi lo : Byte) : Word := hi ++ lo

/-- The byte of a word that stands at the lower address (R62). -/
def highByte (w : Word) : Byte := w.extractLsb' 8 8

/-- The byte of a word that stands at the higher address (R62). -/
def lowByte (w : Word) : Byte := w.extractLsb' 0 8

/-! ### The decoder (R93, R94) -/

/-- Group 0: the three words of format FIXED. -/
def decodeFixed (w : Word) : Option Instr :=
  if w = 0x0000#16 then some .nop
  else if w = 0x00E0#16 then some .cls
  else if w = 0x00EE#16 then some .ret
  else none

/-- Groups 5 and 9: `mk x y` when the low nibble is 0. -/
def decodeXY0 (mk : Reg → Reg → Instr) (w : Word) : Option Instr :=
  if fieldN w = 0x0#4 then some (mk (fieldX w) (fieldY w)) else none

/-- Group 8, by the low nibble; `8xy6` and `8xyE` ignore `y` (R96). -/
def decodeGroup8 (w : Word) : Option Instr :=
  match fieldN w with
  | 0x0#4 => some (.mov (fieldX w) (fieldY w))
  | 0x1#4 => some (.or (fieldX w) (fieldY w))
  | 0x2#4 => some (.and (fieldX w) (fieldY w))
  | 0x3#4 => some (.xor (fieldX w) (fieldY w))
  | 0x4#4 => some (.add (fieldX w) (fieldY w))
  | 0x5#4 => some (.sub (fieldX w) (fieldY w))
  | 0x6#4 => some (.shr (fieldX w))
  | 0x7#4 => some (.subn (fieldX w) (fieldY w))
  | 0xE#4 => some (.shl (fieldX w))
  | _ => none

/-- Group E, by the low byte. -/
def decodeGroupE (w : Word) : Option Instr :=
  match fieldNN w with
  | 0x9E#8 => some (.skp (fieldX w))
  | 0xA1#8 => some (.sknp (fieldX w))
  | _ => none

/-- Group F, by the low byte. -/
def decodeGroupF (w : Word) : Option Instr :=
  match fieldNN w with
  | 0x07#8 => some (.getdt (fieldX w))
  | 0x0A#8 => some (.waitk (fieldX w))
  | 0x15#8 => some (.setdt (fieldX w))
  | 0x18#8 => some (.setst (fieldX w))
  | 0x1E#8 => some (.addidx (fieldX w))
  | 0x29#8 => some (.glyph (fieldX w))
  | 0x33#8 => some (.bcd (fieldX w))
  | 0x55#8 => some (.store (fieldX w))
  | 0x65#8 => some (.load (fieldX w))
  | _ => none

/-- R93: the form of a word, `none` where the word is illegal (R97). It looks at nothing but the word (R99). -/
def decode (w : Word) : Option Instr :=
  match fieldD1 w with
  | 0x0#4 => decodeFixed w
  | 0x1#4 => some (.jp (fieldNNN w))
  | 0x2#4 => some (.call (fieldNNN w))
  | 0x3#4 => some (.sei (fieldX w) (fieldNN w))
  | 0x4#4 => some (.snei (fieldX w) (fieldNN w))
  | 0x5#4 => decodeXY0 .ser w
  | 0x6#4 => some (.ldi (fieldX w) (fieldNN w))
  | 0x7#4 => some (.addi (fieldX w) (fieldNN w))
  | 0x8#4 => decodeGroup8 w
  | 0x9#4 => decodeXY0 .sner w
  | 0xA#4 => some (.ldidx (fieldNNN w))
  | 0xB#4 => some (.jpv0 (fieldNNN w))
  | 0xC#4 => some (.rnd (fieldX w) (fieldNN w))
  | 0xD#4 => some (.drw (fieldX w) (fieldY w) (fieldN w))
  | 0xE#4 => decodeGroupE w
  | 0xF#4 => decodeGroupF w
  | _ => none -- no 4-bit value is left

/-- Why bytes are no instruction. -/
inductive DecodeError where
  /-- R97: the word matches no row of the opcode map. -/
  | illegalInstruction (w : Word)
  /-- Fewer than the two bytes of an instruction (R90). -/
  | truncated (bytes : Nat)
  deriving DecidableEq, Repr

/-- The instruction at the front of a list of bytes, in rising address order, with the bytes after it (R62, R90). -/
def decodeBytes : List Byte → Except DecodeError (Instr × List Byte)
  | hi :: lo :: rest =>
    match decode (composeWord hi lo) with
    | some i => .ok (i, rest)
    | none => .error (.illegalInstruction (composeWord hi lo))
  | short => .error (.truncated short.length)

/-! ### The encoder (R94) -/

/-- The word of an instruction, each row of R94 as its pattern; `y = 0` where the form ignores it (R96, R100). -/
def encode : Instr → Word
  | .nop => 0x0000#16
  | .cls => 0x00E0#16
  | .ret => 0x00EE#16
  | .jp nnn => 0x1#4 ++ nnn
  | .call nnn => 0x2#4 ++ nnn
  | .sei x nn => 0x3#4 ++ x ++ nn
  | .snei x nn => 0x4#4 ++ x ++ nn
  | .ser x y => 0x5#4 ++ x ++ y ++ 0x0#4
  | .ldi x nn => 0x6#4 ++ x ++ nn
  | .addi x nn => 0x7#4 ++ x ++ nn
  | .mov x y => 0x8#4 ++ x ++ y ++ 0x0#4
  | .or x y => 0x8#4 ++ x ++ y ++ 0x1#4
  | .and x y => 0x8#4 ++ x ++ y ++ 0x2#4
  | .xor x y => 0x8#4 ++ x ++ y ++ 0x3#4
  | .add x y => 0x8#4 ++ x ++ y ++ 0x4#4
  | .sub x y => 0x8#4 ++ x ++ y ++ 0x5#4
  | .shr x => 0x8#4 ++ x ++ 0x0#4 ++ 0x6#4
  | .subn x y => 0x8#4 ++ x ++ y ++ 0x7#4
  | .shl x => 0x8#4 ++ x ++ 0x0#4 ++ 0xE#4
  | .sner x y => 0x9#4 ++ x ++ y ++ 0x0#4
  | .ldidx nnn => 0xA#4 ++ nnn
  | .jpv0 nnn => 0xB#4 ++ nnn
  | .rnd x nn => 0xC#4 ++ x ++ nn
  | .drw x y n => 0xD#4 ++ x ++ y ++ n
  | .skp x => 0xE#4 ++ x ++ 0x9E#8
  | .sknp x => 0xE#4 ++ x ++ 0xA1#8
  | .getdt x => 0xF#4 ++ x ++ 0x07#8
  | .waitk x => 0xF#4 ++ x ++ 0x0A#8
  | .setdt x => 0xF#4 ++ x ++ 0x15#8
  | .setst x => 0xF#4 ++ x ++ 0x18#8
  | .addidx x => 0xF#4 ++ x ++ 0x1E#8
  | .glyph x => 0xF#4 ++ x ++ 0x29#8
  | .bcd x => 0xF#4 ++ x ++ 0x33#8
  | .store x => 0xF#4 ++ x ++ 0x55#8
  | .load x => 0xF#4 ++ x ++ 0x65#8

/-- The bytes of an instruction in rising address order: "the assembler emits the high byte first" (R100, R62). -/
def encodeBytes (i : Instr) : List Byte := [highByte (encode i), lowByte (encode i)]

/-! ### The opcode map as data (R94) -/

/-- One row of R94: a word belongs to the row when `w & mask = pattern`. -/
structure OpcodeRow where
  mnemonic : String
  mask : Word
  pattern : Word
  /-- the operand fields in the order of the row's syntax column -/
  slots : List Slot
  deriving DecidableEq, Repr

/-- R93: "A word decodes to a form exactly when `w & mask = match` for that form's row". -/
def OpcodeRow.matches (row : OpcodeRow) (w : Word) : Bool := w &&& row.mask = row.pattern

/-- R94, the 35 rows in order. -/
def opcodeTable : List OpcodeRow :=
  [ ⟨"NOP", 0xFFFF, 0x0000, []⟩,
    ⟨"CLS", 0xFFFF, 0x00E0, []⟩,
    ⟨"RET", 0xFFFF, 0x00EE, []⟩,
    ⟨"JP", 0xF000, 0x1000, [.nnn]⟩,
    ⟨"CALL", 0xF000, 0x2000, [.nnn]⟩,
    ⟨"SEI", 0xF000, 0x3000, [.x, .nn]⟩,
    ⟨"SNEI", 0xF000, 0x4000, [.x, .nn]⟩,
    ⟨"SER", 0xF00F, 0x5000, [.x, .y]⟩,
    ⟨"LDI", 0xF000, 0x6000, [.x, .nn]⟩,
    ⟨"ADDI", 0xF000, 0x7000, [.x, .nn]⟩ ] ++
  [ ⟨"MOV", 0xF00F, 0x8000, [.x, .y]⟩,
    ⟨"OR", 0xF00F, 0x8001, [.x, .y]⟩,
    ⟨"AND", 0xF00F, 0x8002, [.x, .y]⟩,
    ⟨"XOR", 0xF00F, 0x8003, [.x, .y]⟩,
    ⟨"ADD", 0xF00F, 0x8004, [.x, .y]⟩,
    ⟨"SUB", 0xF00F, 0x8005, [.x, .y]⟩,
    ⟨"SHR", 0xF00F, 0x8006, [.x]⟩,
    ⟨"SUBN", 0xF00F, 0x8007, [.x, .y]⟩,
    ⟨"SHL", 0xF00F, 0x800E, [.x]⟩,
    ⟨"SNER", 0xF00F, 0x9000, [.x, .y]⟩ ] ++
  [ ⟨"LDIDX", 0xF000, 0xA000, [.nnn]⟩,
    ⟨"JPV0", 0xF000, 0xB000, [.nnn]⟩,
    ⟨"RND", 0xF000, 0xC000, [.x, .nn]⟩,
    ⟨"DRW", 0xF000, 0xD000, [.x, .y, .n]⟩,
    ⟨"SKP", 0xF0FF, 0xE09E, [.x]⟩,
    ⟨"SKNP", 0xF0FF, 0xE0A1, [.x]⟩,
    ⟨"GETDT", 0xF0FF, 0xF007, [.x]⟩,
    ⟨"WAITK", 0xF0FF, 0xF00A, [.x]⟩,
    ⟨"SETDT", 0xF0FF, 0xF015, [.x]⟩,
    ⟨"SETST", 0xF0FF, 0xF018, [.x]⟩,
    ⟨"ADDIDX", 0xF0FF, 0xF01E, [.x]⟩,
    ⟨"GLYPH", 0xF0FF, 0xF029, [.x]⟩,
    ⟨"BCD", 0xF0FF, 0xF033, [.x]⟩,
    ⟨"STORE", 0xF0FF, 0xF055, [.x]⟩,
    ⟨"LOAD", 0xF0FF, 0xF065, [.x]⟩ ]

/-- R100: the mnemonic of a form, as R94 spells it. -/
def Instr.mnemonic : Instr → String
  | .nop => "NOP"
  | .cls => "CLS"
  | .ret => "RET"
  | .jp _ => "JP"
  | .call _ => "CALL"
  | .sei _ _ => "SEI"
  | .snei _ _ => "SNEI"
  | .ser _ _ => "SER"
  | .ldi _ _ => "LDI"
  | .addi _ _ => "ADDI"
  | .mov _ _ => "MOV"
  | .or _ _ => "OR"
  | .and _ _ => "AND"
  | .xor _ _ => "XOR"
  | .add _ _ => "ADD"
  | .sub _ _ => "SUB"
  | .shr _ => "SHR"
  | .subn _ _ => "SUBN"
  | .shl _ => "SHL"
  | .sner _ _ => "SNER"
  | .ldidx _ => "LDIDX"
  | .jpv0 _ => "JPV0"
  | .rnd _ _ => "RND"
  | .drw _ _ _ => "DRW"
  | .skp _ => "SKP"
  | .sknp _ => "SKNP"
  | .getdt _ => "GETDT"
  | .waitk _ => "WAITK"
  | .setdt _ => "SETDT"
  | .setst _ => "SETST"
  | .addidx _ => "ADDIDX"
  | .glyph _ => "GLYPH"
  | .bcd _ => "BCD"
  | .store _ => "STORE"
  | .load _ => "LOAD"

/-- An operand number placed in its field (R92: never sign-extended, scaled or shifted otherwise). -/
def Slot.place (f : Slot) (k : Nat) : Word := BitVec.ofNat 16 (k <<< f.lo)

/-- The word of a row with the given operand numbers; `none` where they are not as many as the row's fields or one
does not fit its field (R100). A field the row ignores is 0. -/
def OpcodeRow.assemble (row : OpcodeRow) (ops : List Nat) : Option Word :=
  if ops.length = row.slots.length ∧ operandsFit (row.slots.zip ops) then
    some ((row.slots.zip ops).foldl (fun w o => w ||| o.1.place o.2) row.pattern)
  else none

/-- R100: the word of a line "mnemonic, operands", by the opcode map. -/
def assembleWord (mnemonic : String) (ops : List Nat) : Option Word :=
  match opcodeTable.find? fun row => row.mnemonic == mnemonic with
  | some row => row.assemble ops
  | none => none

/-! ### The decoder on the opcode table's own numbering of bits -/

/-- The bytes of an instruction of `nbits` bits given as one number `w` (bit 0 the least significant bit of the first
word), as the hardware stores them: the word's high byte first (R62). Bits from `nbits` up are 0. -/
def tableWordBytes (nbits w : Nat) : List Byte :=
  [highByte (BitVec.ofNat 16 (w % 2 ^ nbits)), lowByte (BitVec.ofNat 16 (w % 2 ^ nbits))]

/-- The instruction the decoder reads from such a number; `none` where it refuses. -/
def decodeTableWord (nbits w : Nat) : Option Instr :=
  match decodeBytes (tableWordBytes nbits w) with
  | .ok (i, _) => some i
  | .error _ => none

end Sys2Proof
end

