-- ==== Sys2Proof/Machine/Control.lean ====
section
/-! DEFINITION. NOP (40_tick_cycle.md) and control transfer (41_control_flow.md). -/

namespace Sys2Proof.Machine

/-- R126. -/
def execNop (s : State) : Result := .next s.advance

/-- R141; on an empty stack `StackUnderflow` with the word as `info` (R240, R244). -/
def execRet (s : State) : Result :=
  match s.advance.pop with
  | some (a, t) => .next (t.setPc a)
  | none => raise .stackUnderflow (encode .ret).toNat s

/-- R142. -/
def execJp (nnn : Addr) (s : State) : Result := .next (s.advance.setPc (zextAddr nnn))

/-- R143: the pushed `pc` is already the address after the CALL; on a full stack `StackOverflow` with the word as `info`
(R240, R243). -/
def execCall (nnn : Addr) (s : State) : Result :=
  match s.advance.push s.advance.pc with
  | some t => .next (t.setPc (zextAddr nnn))
  | none => raise .stackOverflow (encode (.call nnn)).toNat s

/-- R144: always `V[0]`, and the sum is not reduced to 12 bits. -/
def execJpv0 (nnn : Addr) (s : State) : Result := .next (s.advance.setPc (zextByte (s.getV 0x0#4) + zextAddr nnn))

/-- R145. -/
def execSei (x : Reg) (nn : Byte) (s : State) : Result := .next (s.advance.skipIf (s.getV x = nn))

/-- R146. -/
def execSnei (x : Reg) (nn : Byte) (s : State) : Result := .next (s.advance.skipIf (s.getV x ≠ nn))

/-- R147. -/
def execSer (x y : Reg) (s : State) : Result := .next (s.advance.skipIf (s.getV x = s.getV y))

/-- R148. -/
def execSner (x y : Reg) (s : State) : Result := .next (s.advance.skipIf (s.getV x ≠ s.getV y))

end Sys2Proof.Machine
end

