-- ==== Sys2Proof/Machine/Display.lean ====
section
/-! DEFINITION. The display instructions (44_display.md). -/

namespace Sys2Proof.Machine

/-- R211. -/
def execCls (s : State) : Result := .next (s.advance.setFb FrameBuffer.clear)

/-- R212: the position is read before anything is written; `VF` is written last, and always. -/
def execDrw (x y : Reg) (n : Nibble) (s : State) : Result :=
  let drawn := drawPixels s.fb (s.spritePixels x y n)
  checkAccess n.toNat s ((s.advance.setFb drawn.1).setV VF (collisionFlag drawn.2))

end Sys2Proof.Machine
end

