-- ==== Sys2Proof/Machine/Index.lean ====
section
/-! DEFINITION. The index register and memory transfer (43_index_memory.md). None of these but the first three writes
`I` (R197). -/

namespace Sys2Proof.Machine

/-- R191. -/
def execLdidx (nnn : Addr) (s : State) : Result := .next (s.advance.setI (zextAddr nnn))

/-- R192: modulo 65536, and no flag. -/
def execAddidx (x : Reg) (s : State) : Result := .next (s.advance.setI (s.i + zextByte (s.getV x)))

/-- R193: for every value of `Vx`, 16 to 255 included (D8). -/
def execGlyph (x : Reg) (s : State) : Result := .next (s.advance.setI (glyphAddr (s.getV x)))

/-- R194: three digits at `I`, `I + 1`, `I + 2`. -/
def execBcd (x : Reg) (s : State) : Result := checkAccess 3 s (s.advance.storeAtIndex (bcdDigits (s.getV x)))

/-- R195: `V[0]` to `V[x]` at `I` to `I + x`. -/
def execStore (x : Reg) (s : State) : Result :=
  checkAccess (x.toNat + 1) s (s.advance.storeAtIndex (s.regsUpTo x))

/-- R196: the bytes at `I` to `I + x` into `V[0]` to `V[x]`. -/
def execLoad (x : Reg) (s : State) : Result := checkAccess (x.toNat + 1) s (s.advance.loadFromIndex x)

end Sys2Proof.Machine
end

