-- ==== Sys2Proof/Machine/Keypad.lean ====
section
/-! DEFINITION. The keypad and timer instructions (45_keypad_timers.md). -/

namespace Sys2Proof.Machine

/-- R221; a value above 15 raises `KeyIndexOutOfRange` (R220, R246). -/
def execSkp (x : Reg) (s : State) : Result :=
  match keyIndex (s.getV x) with
  | some k => .next (s.advance.skipIf (s.key.get k))
  | none => raise .keyIndexOutOfRange (s.getV x).toNat s

/-- R222; a value above 15 raises `KeyIndexOutOfRange` (R220, R246). -/
def execSknp (x : Reg) (s : State) : Result :=
  match keyIndex (s.getV x) with
  | some k => .next (s.advance.skipIf (!s.key.get k))
  | none => raise .keyIndexOutOfRange (s.getV x).toNat s

/-- R223: the least pressed key, or `pc` back to this WAITK. -/
def execWaitk (x : Reg) (s : State) : Result :=
  match leastPressed s.key with
  | some k => .next (s.advance.setV x (BitVec.ofNat 8 k))
  | none => .next s.advance.rewind

/-- R224. -/
def execGetdt (x : Reg) (s : State) : Result := .next (s.advance.setV x s.dt)

/-- R225. -/
def execSetdt (x : Reg) (s : State) : Result := .next (s.advance.setDt (s.getV x))

/-- R226. -/
def execSetst (x : Reg) (s : State) : Result := .next (s.advance.setSt (s.getV x))

end Sys2Proof.Machine
end

