-- ==== Sys2Proof/Machine/Dispatch.lean ====
section
/-! DEFINITION. Execute (40_tick_cycle.md R124): one arm per form. The state is the one before the tick. -/

namespace Sys2Proof.Machine

/-- R124: the effect of a form on the state before the tick. -/
def exec (i : Instr) (s : State) : Host.Outcome State Fault Refusal :=
  match i with
  | .nop => Sys2Proof.Machine.execNop s
  | .cls => Sys2Proof.Machine.execCls s
  | .ret => Sys2Proof.Machine.execRet s
  | .jp nnn => Sys2Proof.Machine.execJp nnn s
  | .call nnn => Sys2Proof.Machine.execCall nnn s
  | .sei x nn => Sys2Proof.Machine.execSei x nn s
  | .snei x nn => Sys2Proof.Machine.execSnei x nn s
  | .ser x y => Sys2Proof.Machine.execSer x y s
  | .ldi x nn => Sys2Proof.Machine.execLdi x nn s
  | .addi x nn => Sys2Proof.Machine.execAddi x nn s
  | .mov x y => Sys2Proof.Machine.execMov x y s
  | .or x y => Sys2Proof.Machine.execOr x y s
  | .and x y => Sys2Proof.Machine.execAnd x y s
  | .xor x y => Sys2Proof.Machine.execXor x y s
  | .add x y => Sys2Proof.Machine.execAdd x y s
  | .sub x y => Sys2Proof.Machine.execSub x y s
  | .shr x => Sys2Proof.Machine.execShr x s
  | .subn x y => Sys2Proof.Machine.execSubn x y s
  | .shl x => Sys2Proof.Machine.execShl x s
  | .sner x y => Sys2Proof.Machine.execSner x y s
  | .ldidx nnn => Sys2Proof.Machine.execLdidx nnn s
  | .jpv0 nnn => Sys2Proof.Machine.execJpv0 nnn s
  | .rnd x nn => Sys2Proof.Machine.execRnd x nn s
  | .drw x y n => Sys2Proof.Machine.execDrw x y n s
  | .skp x => Sys2Proof.Machine.execSkp x s
  | .sknp x => Sys2Proof.Machine.execSknp x s
  | .getdt x => Sys2Proof.Machine.execGetdt x s
  | .waitk x => Sys2Proof.Machine.execWaitk x s
  | .setdt x => Sys2Proof.Machine.execSetdt x s
  | .setst x => Sys2Proof.Machine.execSetst x s
  | .addidx x => Sys2Proof.Machine.execAddidx x s
  | .glyph x => Sys2Proof.Machine.execGlyph x s
  | .bcd x => Sys2Proof.Machine.execBcd x s
  | .store x => Sys2Proof.Machine.execStore x s
  | .load x => Sys2Proof.Machine.execLoad x s

end Sys2Proof.Machine
end

