-- ==== Sys2Proof/Machine/Fetch.lean ====
section
/-! DEFINITION. Fetch and dispatch of the tick cycle (40_tick_cycle.md R121, R123), and placing a word where the fetch
reads. -/

namespace Sys2Proof.Machine

/-- R125: halted, that is `FAULT` is not `None`. -/
def State.halted (s : State) : Bool := s.fault.isSome

/-- R121: `Mem[pc] ++ Mem[pc + 1]`, for `pc <= 4094`, whatever the parity of `pc` (20_memory.md R64). -/
def State.fetchWord (s : State) : Word := composeWord (s.mem.read s.pc.toNat) (s.mem.read (s.pc.toNat + 1))

/-- Fetch, then dispatch: the instruction to execute, or the fault raised instead with its `info` (R240), in the order
of 60_exceptions.md R248. -/
def fetchDecode (s : State) : Except (Cause × Nat) Instr :=
  if s.pc.toNat > 4094 then .error (.fetchOutOfBounds, s.pc.toNat)
  else
    match decode s.fetchWord with
    | some i => .ok i
    | none => .error (.illegalInstruction, s.fetchWord.toNat)

/-- A word stored where the next tick fetches, high byte first. A fetch needs a machine that is not halted and
`pc <= 4094`: the latch is cleared, and a `pc` beyond that is put to 512. -/
def placeWord (s : State) (w : Word) : State :=
  let pc := if s.pc.toNat > 4094 then 512#16 else s.pc
  { s with pc := pc, fault := none, mem := s.mem.writeBytes pc.toNat [highByte w, lowByte w] }

end Sys2Proof.Machine
end

