-- ==== Sys2Proof/Machine/Step.lean ====
section
/-! DEFINITION. One step is one `tick` (40_tick_cycle.md R120). -/

namespace Sys2Proof.Machine

/-- R120: nothing when halted (R125); otherwise fetch, dispatch, execute, or the fault of the phase that fails. -/
def step (s : State) : Host.Outcome State Fault Refusal :=
  if s.halted then .next s
  else
    match fetchDecode s with
    | .ok i => exec i s
    | .error e => raise e.1 e.2 s

/-- The instruction of `nbits` bits whose bits are `w` (numbered as the opcode table numbers them) stored where the next
step fetches. The words are one of 16 bits; bits from `nbits` up are 0. A program comes to run from reset by the host
operation `load` (log entry 7), which this stands for. -/
def State.withFetchWord (s : State) (nbits w : Nat) : State := placeWord s (BitVec.ofNat 16 (w % 2 ^ nbits))

end Sys2Proof.Machine
end

