-- ==== Sys2Proof/Machine/HostOps.lean ====
section
/-! DEFINITION. The operations the host invokes on the CORE (00_scope.md R11): `reset`, `load`, `tick`, `tick_timers`,
`key_event`, and the queries. Each is one atomic transition; they happen one at a time in the order the host issues
them (20_memory.md R70), and all but `tick` keep their effect while halted (60_exceptions.md R259). -/

namespace Sys2Proof.Machine

/-- A countdown timer's step: at 0 it stays 0 (R252). -/
def countDown (b : Byte) : Byte := if b = 0#8 then 0#8 else b - 1#8

/-- `tick_timers` (R252). -/
def tickTimers (s : State) : State := { s with dt := countDown s.dt, st := countDown s.st }

/-- `key_event(index, pressed)` (R254). The index is 4 bits wide, so none is out of range (D21). -/
def keyEvent (index : Nibble) (pressed : Bool) (s : State) : State :=
  { s with key := s.key.set index.toNat pressed index.isLt }

/-- `load(bytes)` (R282): byte `j` of the image to address `512 + j`, and nothing else (R284). A longer image than 3584
bytes is refused as a whole (R283). -/
def loadImage (bytes : List Byte) (s : State) : Result :=
  if bytes.length ≤ Config.progMax then .next { s with mem := s.mem.writeBytes Config.progBase bytes }
  else .refused (.imageTooLong bytes.length)

/-- `display snapshot` (R255): all 2048 cells in the order of 10_state.md R33. -/
def displaySnapshot (s : State) : Vector Bool 2048 := Vector.ofFn fun k => s.fb.lit (Pixel.ofIndex k)

/-- `audio level` (R256). -/
def audioLevel (s : State) : Byte := s.st

/-- `fault status` (R258). -/
def faultStatus (s : State) : Option FaultRecord := s.fault

/-- The state-changing operations of R11, with their arguments. -/
inductive Operation where
  | reset
  | load (bytes : List Byte)
  | tick
  | tickTimers
  | keyEvent (index : Nibble) (pressed : Bool)
  deriving DecidableEq, Repr

/-- What an operation does. -/
def Operation.apply (op : Operation) (s : State) : Result :=
  match op with
  | .reset => .next (resetCore s)
  | .load bytes => loadImage bytes s
  | .tick => step s
  | .tickTimers => .next (Sys2Proof.Machine.tickTimers s)
  | .keyEvent index pressed => .next (Sys2Proof.Machine.keyEvent index pressed s)

/-- The state in which the host issues its next operation: a refused operation leaves the state as it is (R283). -/
def Operation.after (op : Operation) (s : State) : State :=
  match op.apply s with
  | .next t => t
  | .refused _ => s
  | .fault r => nomatch r

/-- A sequence of operations in the host's order (R11, R70). WHAT ENDS A RUN is left to the model by
70_reset_and_hazards.md R287; DESIGN CHOICE, log entry 24: a run ends when its list of operations is exhausted, in
whatever state that leaves. Nothing marks a state as finished, and a halted state is not one ("A faulted machine is not
finished"): the operations after the fault are still applied. -/
def runOperations (ops : List Operation) (s : State) : State := ops.foldl (fun t op => op.after t) s

end Sys2Proof.Machine
end

