-- ==== Sys2Proof/Safety.lean ====
section
/-! DEFINITION. The terms the statements use: the running and the halted machine, what a fault latch may hold, the
invariant of the reachable states, and the frames. -/

namespace Sys2Proof.Machine

/-- 40_tick_cycle.md R120, R125: `FAULT = None`. -/
abbrev State.running (s : State) : Prop := s.fault = none

/-- The execute phase of a tick is reached with the fetch's bound check passed (R121). -/
abbrev State.fetchable (s : State) : Prop := s.pc.toNat ≤ 4094

/-- What the latch may hold beside the rest of the state, by 60_exceptions.md R240's table: `addr` is the frozen `pc`
(R247), and cause and `info` fit the condition under which the fault is raised. -/
def FaultRecord.consistent (f : FaultRecord) (s : State) : Prop :=
  f.addr = s.pc ∧
  match f.cause with
  | .illegalInstruction => s.pc.toNat ≤ 4094 ∧ f.info < 65536 ∧ decode (BitVec.ofNat 16 f.info) = none
  | .fetchOutOfBounds => 4094 < s.pc.toNat ∧ f.info = s.pc.toNat
  | .stackOverflow => s.pc.toNat ≤ 4094 ∧ s.sp.val = 16 ∧ ∃ nnn, f.info = (encode (.call nnn)).toNat
  | .stackUnderflow => s.pc.toNat ≤ 4094 ∧ s.sp.val = 0 ∧ f.info = 0x00EE
  | .memoryOutOfBounds => s.pc.toNat ≤ 4094 ∧ 4095 < f.info ∧ f.info ≤ 65550
  | .keyIndexOutOfRange => s.pc.toNat ≤ 4094 ∧ 15 < f.info ∧ f.info ≤ 255

/-- The invariant of the machine's reachable states. -/
structure Inv (s : State) : Prop where
  /-- the memory list is in its canonical form -/
  memory : s.mem.wf
  /-- 10_state.md R24: no reachable `pc` is above 255 + 4095 -/
  pcBound : s.pc.toNat ≤ 4350
  /-- R24: a pending return address is one a CALL pushed, at most 4096 -/
  returnBound : ∀ k : Fin 16, k.val < s.sp.val → (s.stack.get k).toNat ≤ 4096
  /-- R240, R247: a latched fault fits the state it was raised in -/
  latch : ∀ f, s.fault = some f → f.consistent s

/-- A state the host can reach from reset by any sequence of operations (00_scope.md R11), on a machine with any glyph
table (R6 (a)). -/
def Reachable (s : State) : Prop := ∃ glyphs ops, s = runOperations ops (State.resetWith glyphs)

/-- An instruction runs to its end on `s`, in a next state of which `post` holds. -/
def Completes (i : Instr) (s : State) (post : State → Prop) : Prop := ∃ t, exec i s = .next t ∧ post t

/-- The state a tick leaves when it raises a fault (R247): the state before the tick with the latch set. -/
def faulted (s : State) (cause : Cause) (info : Nat) : State := { s with fault := some ⟨cause, info, s.pc⟩ }

/-- From `s` to `t` a fault was raised. -/
def Raised (s t : State) : Prop := ∃ cause info, t = faulted s cause info

/-- 44_display.md R212: the cell `p` lies under a set bit of the `n`-row sprite drawn from `I` at `(V[x], V[y])`. -/
def UnderSprite (s : State) (x y : Reg) (n : Nibble) (p : Pixel) : Prop :=
  ∃ r c, r < n.toNat ∧ c < 8 ∧ (s.mem.read (s.indexAddr r)).getLsbD (7 - c) = true ∧
    p.col.val = ((s.getV x).toNat + c) % 64 ∧ p.row.val = ((s.getV y).toNat + r) % 32

/-! ### Frames: what an instruction leaves as it was -/

/-- Every general register but those listed. -/
def SameRegsBut (changed : List Reg) (s t : State) : Prop := ∀ r, r ∉ changed → t.getV r = s.getV r

/-- Every byte of memory, through the read of one byte. -/
def SameMemory (s t : State) : Prop := ∀ a, t.mem.read a = s.mem.read a

/-- Every byte of memory outside the `len` bytes at `a`. -/
def SameMemoryOutside (a len : Nat) (s t : State) : Prop :=
  ∀ b, (b < a ∨ a + len ≤ b) → t.mem.read b = s.mem.read b

/-- Every cell of the framebuffer. -/
def SameDisplay (s t : State) : Prop := ∀ p, t.fb.lit p = s.fb.lit p

/-- Every stack entry and the stack pointer. -/
def SameStack (s t : State) : Prop := (∀ k : Fin 16, t.stack.get k = s.stack.get k) ∧ t.sp = s.sp

/-- Both timers. -/
def SameTimers (s t : State) : Prop := t.dt = s.dt ∧ t.st = s.st

/-- Every key. -/
def SameKeys (s t : State) : Prop := ∀ k : Fin 16, t.key.get k = s.key.get k

/-- The parts outside the register file and `pc` that most instructions leave alone: `I`, memory, the framebuffer, the
stack, the timers, the keys, the fault latch and the count of draws. -/
structure SameRest (s t : State) : Prop where
  index : t.i = s.i
  memory : SameMemory s t
  display : SameDisplay s t
  stack : SameStack s t
  timers : SameTimers s t
  keys : SameKeys s t
  latch : t.fault = s.fault
  draws : t.draws = s.draws

end Sys2Proof.Machine
end

