-- ==== Sys2Proof/Certificates/Slice0/Obligations.lean ====
section
/-! DEFINITION. The statements for the provers. A docstring names the rule of the spec a statement formalises; where the
rule rests on a decision of 92_eei_decisions.md (the spec's own choice) or on an entry of notes/assumptions, it says so.
Every statement about an instruction gives its encoding, its result as plain numbers where it computes, and its frame:
`SameRest` is everything outside the register file and `pc`. -/

open Sys2Proof Sys2Proof.Machine

/-! ### Encoding (30_encoding.md) -/

/-- R94: the decoder reads back every encoded instruction, at every value of every operand. -/
def Obligations.DecodeOfEncode : Prop := ∀ i : Instr, decode (encode i) = some i

/-- R93: a word decodes to a form exactly when it matches that form's row of the opcode map; the 35 rows are pairwise
disjoint; a word that matches no row decodes to nothing. -/
def Obligations.DecodeIsTheOpcodeMap : Prop :=
  opcodeTable.length = 35 ∧
  (∀ row ∈ opcodeTable, ∀ w, row.matches w = true ↔ ∃ i, decode w = some i ∧ i.mnemonic = row.mnemonic) ∧
  (opcodeTable.Pairwise fun row other => ∀ w, ¬ (row.matches w = true ∧ other.matches w = true)) ∧
  ∀ w, decode w = none ↔ ∀ row ∈ opcodeTable, row.matches w = false

/-- R97's table: exactly which words are illegal, group by group. -/
def Obligations.IllegalWordsByGroup : Prop :=
  ∀ w : Word, decode w = none ↔
    (fieldD1 w = 0x0 ∧ w ≠ 0x0000 ∧ w ≠ 0x00E0 ∧ w ≠ 0x00EE) ∨
    (fieldD1 w = 0x5 ∧ fieldN w ≠ 0) ∨
    (fieldD1 w = 0x8 ∧ fieldN w ∈ [0x8, 0x9, 0xA, 0xB, 0xC, 0xD, 0xF]) ∨
    (fieldD1 w = 0x9 ∧ fieldN w ≠ 0) ∨
    (fieldD1 w = 0xE ∧ fieldNN w ∉ [0x9E, 0xA1]) ∨
    (fieldD1 w = 0xF ∧ fieldNN w ∉ [0x07, 0x0A, 0x15, 0x18, 0x1E, 0x29, 0x33, 0x55, 0x65])

/-- R92: every operand is read straight from the word as an unsigned number; `nnn` written to a 16-bit register is
zero-extended. -/
def Obligations.OperandsReadStraight : Prop :=
  ∀ w : Word,
    (fieldX w).toNat = w.toNat / 256 % 16 ∧ (fieldY w).toNat = w.toNat / 16 % 16 ∧
    (fieldN w).toNat = w.toNat % 16 ∧ (fieldNN w).toNat = (fieldY w).toNat * 16 + (fieldN w).toNat ∧
    (fieldNNN w).toNat = (fieldX w).toNat * 256 + (fieldY w).toNat * 16 + (fieldN w).toNat ∧
    (zextAddr (fieldNNN w)).toNat = (fieldNNN w).toNat

/-- R96: SHR and SHL accept all sixteen values of the `y` field, with one meaning; the assembler emits 0 there. -/
def Obligations.ShiftsIgnoreY : Prop :=
  ∀ x y : Reg,
    decode (0x8#4 ++ x ++ y ++ 0x6#4) = some (.shr x) ∧ decode (0x8#4 ++ x ++ y ++ 0xE#4) = some (.shl x) ∧
    encode (.shr x) = 0x8#4 ++ x ++ 0x0#4 ++ 0x6#4 ∧ encode (.shl x) = 0x8#4 ++ x ++ 0x0#4 ++ 0xE#4

/-- R100: assembling an instruction's mnemonic and operand numbers by the opcode map gives its encoding, so every
operand fits its field. The mnemonics are the spec's decision D22. -/
def Obligations.AssemblerAgreesWithEncoder : Prop :=
  ∀ i : Instr, assembleWord i.mnemonic (i.operands.map fun o => o.2) = some (encode i)

/-- 95_test_vectors.md T2.1: words written out from the spec's patterns decode to what they stand for. -/
def Obligations.SampleWordsDecode : Prop :=
  decode 0x00EE = some .ret ∧ decode 0x2ABC = some (.call 0xABC) ∧ decode 0x3A7F = some (.sei 0xA 0x7F) ∧
  decode 0x5AB0 = some (.ser 0xA 0xB) ∧ decode 0x8127 = some (.subn 0x1 0x2) ∧ decode 0xB123 = some (.jpv0 0x123) ∧
  decode 0xDABF = some (.drw 0xA 0xB 0xF) ∧ decode 0xE5A1 = some (.sknp 0x5) ∧ decode 0xF265 = some (.load 0x2) ∧
  decode 0x5001 = none ∧ decode 0x8128 = none ∧ decode 0xF234 = none

/-! ### The tick (40_tick_cycle.md) -/

/-- R62, R121: the fetched word has the byte at `pc` as its upper half, whatever the parity of `pc`. -/
def Obligations.FetchIsBigEndian : Prop :=
  ∀ s : State, s.fetchWord.toNat = (s.mem.read s.pc.toNat).toNat * 256 + (s.mem.read (s.pc.toNat + 1)).toNat

/-- R120: on a running machine with `pc <= 4094`, when the two bytes at `pc` decode to `i`, the tick is the execution of
`i`. Nothing stands around `exec`: a meaning is given the state before the tick and advances `pc` itself (log entry 6). -/
def Obligations.StepRunsDecodedInstruction : Prop :=
  ∀ (s : State) (i : Instr), s.running → s.fetchable →
    decode (composeWord (s.mem.read s.pc.toNat) (s.mem.read (s.pc.toNat + 1))) = some i → step s = exec i s

/-- R121, R242 (the spec's decision D4): a fetch with `pc > 4094` raises `FetchOutOfBounds(pc)`; R123, R241 (D2): a
fetched word that is illegal raises `IllegalInstruction(w)`. Neither changes anything else. -/
def Obligations.FetchAndDispatchFaults : Prop :=
  ∀ s : State, s.running →
    (4094 < s.pc.toNat → step s = .next (faulted s .fetchOutOfBounds s.pc.toNat)) ∧
    (s.fetchable → decode s.fetchWord = none →
      step s = .next (faulted s .illegalInstruction s.fetchWord.toNat))

/-- R125 (the spec's decision D2): a tick of a halted machine changes nothing. -/
def Obligations.HaltedTickChangesNothing : Prop := ∀ s : State, ¬ s.running → step s = .next s

/-- R127 and R247: every tick ends in a next state; it never blocks, stops or is refused. That a fault is a next state is
the model's reading of R247 (the spec's decision D2; log entry 3). -/
def Obligations.EveryTickHasANextState : Prop := ∀ s : State, ∃ t, step s = .next t

/-- R247 (the spec's decision D2): a tick that raises a fault changes the latch and nothing else; `addr` is the `pc`
before the tick. -/
def Obligations.FaultsArePrecise : Prop :=
  ∀ (s t : State) (f : FaultRecord), s.running → step s = .next t → t.fault = some f →
    t = { s with fault := some f } ∧ f.addr = s.pc

/-- R248, R240 (the spec's decisions D3 to D7, D9): which form raises which fault, on which condition, with which
`info`; the other 27 forms raise none. -/
def Obligations.FaultsByForm : Prop :=
  ∀ (i : Instr) (s t : State) (f : FaultRecord), s.running → exec i s = .next t → t.fault = some f →
    match f.cause with
    | .illegalInstruction => False
    | .fetchOutOfBounds => False
    | .stackOverflow => ∃ nnn, i = .call nnn ∧ s.sp.val = 16 ∧ f.info = (encode i).toNat
    | .stackUnderflow => i = .ret ∧ s.sp.val = 0 ∧ f.info = 0x00EE
    | .memoryOutOfBounds =>
      4095 < f.info ∧
      ((∃ x, i = .bcd x ∧ f.info = s.i.toNat + 2) ∨
       (∃ x, (i = .store x ∨ i = .load x) ∧ f.info = s.i.toNat + x.toNat) ∨
       (∃ x y n, i = .drw x y n ∧ 0 < n.toNat ∧ f.info = s.i.toNat + n.toNat - 1))
    | .keyIndexOutOfRange => ∃ x, (i = .skp x ∨ i = .sknp x) ∧ 15 < f.info ∧ f.info = (s.getV x).toNat

/-- R249 (the spec's decision D2): nothing but `reset` clears the fault latch. -/
def Obligations.OnlyResetClearsTheLatch : Prop :=
  ∀ (op : Operation) (s : State) (f : FaultRecord), s.fault = some f → op ≠ .reset → (op.after s).fault = some f

/-! ### The invariant (10_state.md R24, 60_exceptions.md R240) -/

/-- The reset state meets the invariant, whatever the machine's glyph table is (R6 (a), R37); so does the one with the
default table. -/
def Obligations.ResetMeetsInvariant : Prop := (∀ glyphs, Inv (State.resetWith glyphs)) ∧ Inv State.reset

/-- Every step keeps the invariant: the memory list stays canonical, `pc` stays at most 4350, every pending return
address stays at most 4096 (R24), and a latched fault fits the state it was raised in (R240, the spec's decisions D2 to
D7). -/
def Obligations.StepKeepsInvariant : Prop := ∀ s t : State, Inv s → step s = .next t → Inv t

/-- Every operation of the host (R11) keeps the invariant, from every state that meets it; so every state the host can
reach from reset meets it, on a machine with any glyph table, and no addition to `pc` ever wraps. Any order of operations
is admitted (log entry 23); the latch clause of `Inv` rests on the spec's decisions D2 to D7 (log entries 3, 10), that the
other operations work while halted on D20, and that `load` may come at any time on D27 (log entry 17). -/
def Obligations.OperationsKeepInvariant : Prop :=
  (∀ (op : Operation) (s : State), Inv s → Inv (op.after s)) ∧ (∀ glyphs, Inv (State.resetWith glyphs)) ∧
  ∀ s : State, Reachable s → Inv s

/-! ### Whole-machine rules -/

/-- R38's column "written by" (its instructions), R75, R124: for each piece of state, the only forms that change it. A
form's own register is the one in its `x` field. `pc` is written by the fetch in every tick: it ends other than 2 ahead
only after a fault or by the forms listed; the latch changes only by a fault (R34). A tick counts no timer, changes no key
and not the glyph table. That the transfers leave `I` and that no other row writes a flag are the spec's decisions D23 and
D24 (log entry 16); that a fault leaves the rest is D2 (log entry 3); the count of draws is the model's own (log
entry 2). -/
def Obligations.OnlyTheseFormsWrite : Prop :=
  ∀ (i : Instr) (s t : State), exec i s = .next t →
    (¬ SameMemory s t → i.mnemonic ∈ ["BCD", "STORE"]) ∧
    (∀ r, t.getV r ≠ s.getV r →
      ((.x, r.toNat) ∈ i.operands ∧ i.mnemonic ∈ ["LDI", "ADDI", "MOV", "OR", "AND", "XOR", "ADD", "SUB", "SHR", "SUBN",
        "SHL", "RND", "GETDT", "WAITK", "LOAD"]) ∨
      (r = VF ∧ i.mnemonic ∈ ["ADD", "SUB", "SHR", "SUBN", "SHL", "DRW"]) ∨
      ∃ x, i = .load x ∧ r.toNat ≤ x.toNat) ∧
    (t.i ≠ s.i → i.mnemonic ∈ ["LDIDX", "ADDIDX", "GLYPH"]) ∧
    (t.pc ≠ s.pc + 2 → Raised s t ∨
      i.mnemonic ∈ ["RET", "JP", "CALL", "JPV0", "SEI", "SNEI", "SER", "SNER", "SKP", "SKNP", "WAITK"]) ∧
    ((∃ k : Fin 16, t.stack.get k ≠ s.stack.get k) → i.mnemonic = "CALL") ∧
    (t.sp ≠ s.sp → i.mnemonic ∈ ["CALL", "RET"]) ∧
    (t.dt ≠ s.dt → i.mnemonic = "SETDT") ∧
    (t.st ≠ s.st → i.mnemonic = "SETST") ∧
    SameKeys s t ∧
    (¬ SameDisplay s t → i.mnemonic ∈ ["CLS", "DRW"]) ∧
    (t.fault ≠ s.fault → Raised s t ∧
      i.mnemonic ∈ ["RET", "CALL", "BCD", "STORE", "LOAD", "DRW", "SKP", "SKNP"]) ∧
    t.mem.glyphs = s.mem.glyphs ∧
    (t.draws ≠ s.draws → i.mnemonic = "RND")

/-- R22: a form that changes `VF` either names register 15 as its `x`, or is one of ADD, SUB, SUBN, SHR, SHL, DRW and
leaves 0 or 1 there. That no other form writes it is the spec's decision D24. -/
def Obligations.FlagWriters : Prop :=
  ∀ (i : Instr) (s t : State), exec i s = .next t → t.getV VF ≠ s.getV VF →
    (∃ o ∈ i.operands, o = (.x, 15)) ∨
    ((t.getV VF = 0 ∨ t.getV VF = 1) ∧
      ((∃ x y, i = .add x y ∨ i = .sub x y ∨ i = .subn x y) ∨ (∃ x, i = .shr x ∨ i = .shl x) ∨
        ∃ x y n, i = .drw x y n))

/-- R127 in the terms of log entry 2 (the model's choice): what the random source gives next is a function of the count
`draws` alone, and the next state of every form but RND is the same, that count apart, whatever the count is. It says
nothing of a form that would read the free function `Config.randomByte` at a fixed place. -/
def Obligations.AllButRndIgnoreTheCountOfDraws : Prop :=
  ∀ (i : Instr) (s t : State) (d : Nat), (∀ x nn, i ≠ .rnd x nn) → exec i s = .next t →
    exec i { s with draws := d } = .next { t with draws := d }

/-- R67: a byte reads as last written, and a write changes exactly that byte. -/
def Obligations.MemoryReadAfterWrite : Prop :=
  ∀ (m : Memory) (a : Nat) (b : Byte) (c : Nat), (m.write a b).read c = if c = a then b else m.read c

/-! ### NOP and control transfer (40_tick_cycle.md, 41_control_flow.md) -/

/-- R126: 0x0000 is NOP, it advances `pc` and changes nothing else; 0x0001 is illegal. -/
def Obligations.NopOnlyAdvances : Prop :=
  decode 0x0000#16 = some .nop ∧ decode 0x0001#16 = none ∧
  ∀ s : State, exec .nop s = .next { s with pc := s.pc + 2 }

/-- R142: JP puts `pc` to `nnn` and changes nothing else; a JP to its own address changes nothing at all. -/
def Obligations.JpJumps : Prop :=
  ∀ (nnn : Addr) (s : State), decode (0x1#4 ++ nnn) = some (.jp nnn) ∧
    (Completes (.jp nnn) s fun t => t.pc.toNat = nnn.toNat ∧ SameRegsBut [] s t ∧ SameRest s t) ∧
    (nnn.toNat = s.pc.toNat → exec (.jp nnn) s = .next s)

/-- R144: JPV0 puts `pc` to `V[0] + nnn`, not reduced to 12 bits, and changes nothing else. -/
def Obligations.Jpv0JumpsByRegisterZero : Prop :=
  ∀ (nnn : Addr) (s : State), decode (0xB#4 ++ nnn) = some (.jpv0 nnn) ∧
    Completes (.jpv0 nnn) s fun t =>
      t.pc.toNat = (s.getV 0).toNat + nnn.toNat ∧ SameRegsBut [] s t ∧ SameRest s t

/-- R145, R146: SEI and SNEI skip on equality and on inequality with `nn`; nothing but `pc` changes. -/
def Obligations.ImmediateSkips : Prop :=
  ∀ (x : Reg) (nn : Byte) (s : State),
    decode (0x3#4 ++ x ++ nn) = some (.sei x nn) ∧ decode (0x4#4 ++ x ++ nn) = some (.snei x nn) ∧
    (Completes (.sei x nn) s fun t =>
      t.pc = (if (s.getV x).toNat = nn.toNat then s.pc + 4 else s.pc + 2) ∧ SameRegsBut [] s t ∧ SameRest s t) ∧
    (Completes (.snei x nn) s fun t =>
      t.pc = (if (s.getV x).toNat = nn.toNat then s.pc + 2 else s.pc + 4) ∧ SameRegsBut [] s t ∧ SameRest s t)

/-- R147, R148: SER and SNER skip on equality and on inequality of two registers, nothing but `pc` changes, and the low
nibble of their words must be 0. -/
def Obligations.RegisterSkips : Prop :=
  ∀ (x y : Reg) (s : State),
    decode (0x5#4 ++ x ++ y ++ 0x0#4) = some (.ser x y) ∧ decode (0x9#4 ++ x ++ y ++ 0x0#4) = some (.sner x y) ∧
    (∀ n : Nibble, n ≠ 0 → decode (0x5#4 ++ x ++ y ++ n) = none ∧ decode (0x9#4 ++ x ++ y ++ n) = none) ∧
    (Completes (.ser x y) s fun t =>
      t.pc = (if (s.getV x).toNat = (s.getV y).toNat then s.pc + 4 else s.pc + 2) ∧
      SameRegsBut [] s t ∧ SameRest s t) ∧
    (Completes (.sner x y) s fun t =>
      t.pc = (if (s.getV x).toNat = (s.getV y).toNat then s.pc + 2 else s.pc + 4) ∧
      SameRegsBut [] s t ∧ SameRest s t)

/-- R143 below a full stack: CALL writes the address after it at the pointer, increments the pointer, jumps, and changes
nothing else. The bound on `SP` is the spec's decision D5. -/
def Obligations.CallPushesReturnAddress : Prop :=
  ∀ (nnn : Addr) (s : State), decode (0x2#4 ++ nnn) = some (.call nnn) ∧
    ∀ room : s.sp.val < 16, Completes (.call nnn) s fun t =>
      t.stack.get ⟨s.sp.val, room⟩ = s.pc + 2 ∧ t.sp.val = s.sp.val + 1 ∧ t.pc.toNat = nnn.toNat ∧
      (∀ k : Fin 16, k.val ≠ s.sp.val → t.stack.get k = s.stack.get k) ∧
      SameRegsBut [] s t ∧ SameRest s { t with stack := s.stack, sp := s.sp }

/-- R141 above an empty stack: RET decrements the pointer, puts `pc` to the entry there, leaves the entry, and changes
nothing else. The bound on `SP` is the spec's decision D5. -/
def Obligations.RetPopsReturnAddress : Prop :=
  decode 0x00EE#16 = some .ret ∧
  ∀ (s : State) (k : Fin 16), s.sp.val = k.val + 1 → Completes .ret s fun t =>
    t.pc = s.stack.get k ∧ t.sp.val = k.val ∧ (∀ j, t.stack.get j = s.stack.get j) ∧
    SameRegsBut [] s t ∧ SameRest s { t with sp := s.sp }

/-- R243, R244 (the spec's decision D5): CALL on a full stack and RET on an empty one raise their faults with the word as
`info`, and change nothing else. -/
def Obligations.StackFaults : Prop :=
  (∀ (nnn : Addr) (s : State), s.sp.val = 16 →
    exec (.call nnn) s = .next (faulted s .stackOverflow (0x2000 + nnn.toNat))) ∧
  ∀ s : State, s.sp.val = 0 → exec .ret s = .next (faulted s .stackUnderflow 0x00EE)

/-- R143's corner case: a RET that finds the stack as a CALL left it, whatever else ran in between, continues at the
address after the CALL with the pointer back. -/
def Obligations.RetUndoesCall : Prop :=
  ∀ (nnn : Addr) (s t u w : State), s.sp.val < 16 → exec (.call nnn) s = .next t →
    u.stack = t.stack → u.sp = t.sp → exec .ret u = .next w → w.pc = s.pc + 2 ∧ w.sp = s.sp

/-! ### Register arithmetic and logic (42_alu.md) -/

/-- R162, R164: LDI puts `nn` and MOV puts `Vy` in `Vx`; nothing else changes. -/
def Obligations.LdiAndMovCopy : Prop :=
  ∀ (x y : Reg) (nn : Byte) (s : State),
    decode (0x6#4 ++ x ++ nn) = some (.ldi x nn) ∧ decode (0x8#4 ++ x ++ y ++ 0x0#4) = some (.mov x y) ∧
    (Completes (.ldi x nn) s fun t => t.getV x = nn ∧ SameRegsBut [x] s t ∧ t.pc = s.pc + 2 ∧ SameRest s t) ∧
    (Completes (.mov x y) s fun t => t.getV x = s.getV y ∧ SameRegsBut [x] s t ∧ t.pc = s.pc + 2 ∧ SameRest s t)

/-- R163: ADDI adds modulo 256 and writes no flag (the spec's decision D24). -/
def Obligations.AddiWrapsWithoutFlag : Prop :=
  ∀ (x : Reg) (nn : Byte) (s : State), decode (0x7#4 ++ x ++ nn) = some (.addi x nn) ∧
    Completes (.addi x nn) s fun t =>
      (t.getV x).toNat = ((s.getV x).toNat + nn.toNat) % 256 ∧ SameRegsBut [x] s t ∧ t.pc = s.pc + 2 ∧ SameRest s t

/-- R165 to R167: OR, AND, XOR bit by bit, with no flag written (the spec's decision D24). -/
def Obligations.BitwiseOperations : Prop :=
  ∀ (x y : Reg) (s : State),
    decode (0x8#4 ++ x ++ y ++ 0x1#4) = some (.or x y) ∧ decode (0x8#4 ++ x ++ y ++ 0x2#4) = some (.and x y) ∧
    decode (0x8#4 ++ x ++ y ++ 0x3#4) = some (.xor x y) ∧
    (Completes (.or x y) s fun t =>
      (∀ k < 8, (t.getV x).getLsbD k = ((s.getV x).getLsbD k || (s.getV y).getLsbD k)) ∧
      SameRegsBut [x] s t ∧ t.pc = s.pc + 2 ∧ SameRest s t) ∧
    (Completes (.and x y) s fun t =>
      (∀ k < 8, (t.getV x).getLsbD k = ((s.getV x).getLsbD k && (s.getV y).getLsbD k)) ∧
      SameRegsBut [x] s t ∧ t.pc = s.pc + 2 ∧ SameRest s t) ∧
    (Completes (.xor x y) s fun t =>
      (∀ k < 8, (t.getV x).getLsbD k = ((s.getV x).getLsbD k ^^ (s.getV y).getLsbD k)) ∧
      SameRegsBut [x] s t ∧ t.pc = s.pc + 2 ∧ SameRest s t)

/-- R168: ADD, the sum in `Vx` and then the carry in `VF`, from the old values. That the carry is what remains for
`x = 15` is R161's reading (the spec's decision D17, log entry 8). -/
def Obligations.AddWritesSumThenCarry : Prop :=
  ∀ (x y : Reg) (s : State), decode (0x8#4 ++ x ++ y ++ 0x4#4) = some (.add x y) ∧
    Completes (.add x y) s fun t =>
      (x ≠ VF → (t.getV x).toNat = ((s.getV x).toNat + (s.getV y).toNat) % 256) ∧
      (t.getV VF).toNat = (if 255 < (s.getV x).toNat + (s.getV y).toNat then 1 else 0) ∧
      SameRegsBut [x, VF] s t ∧ t.pc = s.pc + 2 ∧ SameRest s t

/-- R169: SUB, `Vx - Vy` modulo 256 in `Vx` and then not-borrow in `VF`, from the old values; `x = 15` as in ADD (D17). -/
def Obligations.SubWritesDifferenceThenNotBorrow : Prop :=
  ∀ (x y : Reg) (s : State), decode (0x8#4 ++ x ++ y ++ 0x5#4) = some (.sub x y) ∧
    Completes (.sub x y) s fun t =>
      (x ≠ VF → (t.getV x).toNat = if (s.getV y).toNat ≤ (s.getV x).toNat
        then (s.getV x).toNat - (s.getV y).toNat else (s.getV x).toNat + 256 - (s.getV y).toNat) ∧
      (t.getV VF).toNat = (if (s.getV x).toNat < (s.getV y).toNat then 0 else 1) ∧
      SameRegsBut [x, VF] s t ∧ t.pc = s.pc + 2 ∧ SameRest s t

/-- R171: SUBN, `Vy - Vx` modulo 256 in `Vx` and then not-borrow in `VF`, from the old values; `x = 15` as in ADD
(D17). -/
def Obligations.SubnWritesReverseDifference : Prop :=
  ∀ (x y : Reg) (s : State), decode (0x8#4 ++ x ++ y ++ 0x7#4) = some (.subn x y) ∧
    Completes (.subn x y) s fun t =>
      (x ≠ VF → (t.getV x).toNat = if (s.getV x).toNat ≤ (s.getV y).toNat
        then (s.getV y).toNat - (s.getV x).toNat else (s.getV y).toNat + 256 - (s.getV x).toNat) ∧
      (t.getV VF).toNat = (if (s.getV y).toNat < (s.getV x).toNat then 0 else 1) ∧
      SameRegsBut [x, VF] s t ∧ t.pc = s.pc + 2 ∧ SameRest s t

/-- R170, R173: SHR halves `Vx` in place, with the bit shifted out in `VF`; `VF` ends 0 when it is itself shifted (the
spec's decision D17, log entry 8). -/
def Obligations.ShrHalvesInPlace : Prop :=
  ∀ (x : Reg) (s : State), Completes (.shr x) s fun t =>
    (x ≠ VF → (t.getV x).toNat = (s.getV x).toNat / 2 ∧ (t.getV VF).toNat = (s.getV x).toNat % 2) ∧
    (x = VF → t.getV VF = 0) ∧ SameRegsBut [x, VF] s t ∧ t.pc = s.pc + 2 ∧ SameRest s t

/-- R172, R173: SHL doubles `Vx` modulo 256 in place, with the bit shifted out in `VF`; `VF` ends 2 or 0 when it is
itself shifted (the spec's decision D17, log entry 8). -/
def Obligations.ShlDoublesInPlace : Prop :=
  ∀ (x : Reg) (s : State), Completes (.shl x) s fun t =>
    (x ≠ VF → (t.getV x).toNat = 2 * (s.getV x).toNat % 256 ∧
      (t.getV VF).toNat = (if 128 ≤ (s.getV x).toNat then 1 else 0)) ∧
    (x = VF → (t.getV VF).toNat = (if 128 ≤ (s.getV VF).toNat then 2 else 0)) ∧
    SameRegsBut [x, VF] s t ∧ t.pc = s.pc + 2 ∧ SameRest s t

/-- R174: RND draws exactly one byte (the spec's decision D19), also when `nn = 0`, and leaves the drawn byte AND `nn` in
`Vx`, so no bit that `nn` has clear. The byte is a free value (log entry 2): the statement holds for every count of
draws and rests on no byte's value. -/
def Obligations.RndMasksOneDraw : Prop :=
  ∀ (x : Reg) (nn : Byte) (s : State), decode (0xC#4 ++ x ++ nn) = some (.rnd x nn) ∧
    Completes (.rnd x nn) s fun t =>
      (∀ k < 8, (t.getV x).getLsbD k = ((Config.randomByte s.draws).getLsbD k && nn.getLsbD k)) ∧
      (t.getV x).toNat ≤ nn.toNat ∧ t.draws = s.draws + 1 ∧
      SameRegsBut [x] s t ∧ t.pc = s.pc + 2 ∧ SameRest s { t with draws := s.draws }

/-! ### The index register and memory transfer (43_index_memory.md) -/

/-- R191: LDIDX. -/
def Obligations.LdidxLoadsIndex : Prop :=
  ∀ (nnn : Addr) (s : State), decode (0xA#4 ++ nnn) = some (.ldidx nnn) ∧
    Completes (.ldidx nnn) s fun t =>
      t.i.toNat = nnn.toNat ∧ SameRegsBut [] s t ∧ t.pc = s.pc + 2 ∧ SameRest s { t with i := s.i }

/-- R192, R193: ADDIDX adds modulo 65536 and GLYPH takes five times the whole register, 16 to 255 included; neither
writes a flag, accesses memory or faults (the spec's decisions D6, D8, D24). -/
def Obligations.IndexArithmetic : Prop :=
  ∀ (x : Reg) (s : State),
    decode (0xF#4 ++ x ++ 0x1E#8) = some (.addidx x) ∧ decode (0xF#4 ++ x ++ 0x29#8) = some (.glyph x) ∧
    (Completes (.addidx x) s fun t =>
      t.i.toNat = (s.i.toNat + (s.getV x).toNat) % 65536 ∧
      SameRegsBut [] s t ∧ t.pc = s.pc + 2 ∧ SameRest s { t with i := s.i }) ∧
    (Completes (.glyph x) s fun t =>
      t.i.toNat = (s.getV x).toNat * 5 ∧
      SameRegsBut [] s t ∧ t.pc = s.pc + 2 ∧ SameRest s { t with i := s.i })

/-- R194 in bounds: BCD writes the three decimal digits at `I`, `I + 1`, `I + 2` and changes no other byte and no
register, `I` included. The bound is the spec's decision D6; `I` unchanged, D23. -/
def Obligations.BcdStoresDigits : Prop :=
  ∀ (x : Reg) (s : State), decode (0xF#4 ++ x ++ 0x33#8) = some (.bcd x) ∧
    (s.indexAddr 2 ≤ 4095 → Completes (.bcd x) s fun t =>
      (t.mem.read (s.indexAddr 0)).toNat = (s.getV x).toNat / 100 ∧
      (t.mem.read (s.indexAddr 1)).toNat = (s.getV x).toNat / 10 % 10 ∧
      (t.mem.read (s.indexAddr 2)).toNat = (s.getV x).toNat % 10 ∧
      SameMemoryOutside (s.indexAddr 0) 3 s t ∧
      SameRegsBut [] s t ∧ t.pc = s.pc + 2 ∧ SameRest s { t with mem := s.mem })

/-- R195 in bounds: STORE writes `V[0]` to `V[x]` at `I` to `I + x` and changes no other byte and no register, `I`
included. The bound is the spec's decision D6; `I` unchanged, D23. -/
def Obligations.StoreCopiesRegisters : Prop :=
  ∀ (x : Reg) (s : State), decode (0xF#4 ++ x ++ 0x55#8) = some (.store x) ∧
    (s.indexAddr x.toNat ≤ 4095 → Completes (.store x) s fun t =>
      (∀ r : Reg, r.toNat ≤ x.toNat → t.mem.read (s.indexAddr r.toNat) = s.getV r) ∧
      SameMemoryOutside (s.indexAddr 0) (x.toNat + 1) s t ∧
      SameRegsBut [] s t ∧ t.pc = s.pc + 2 ∧ SameRest s { t with mem := s.mem })

/-- R196 in bounds: LOAD copies the bytes at `I` to `I + x` into `V[0]` to `V[x]` and changes no other register, no byte
of memory and not `I`. The bound is the spec's decision D6; `I` unchanged, D23. -/
def Obligations.LoadCopiesMemory : Prop :=
  ∀ (x : Reg) (s : State), decode (0xF#4 ++ x ++ 0x65#8) = some (.load x) ∧
    (s.indexAddr x.toNat ≤ 4095 → Completes (.load x) s fun t =>
      (∀ r : Reg, r.toNat ≤ x.toNat → t.getV r = s.mem.read (s.indexAddr r.toNat)) ∧
      (∀ r : Reg, x.toNat < r.toNat → t.getV r = s.getV r) ∧ t.pc = s.pc + 2 ∧ SameRest s t)

/-- R245 (the spec's decision D6): an access whose highest address, an unbounded natural, is above 4095 raises
`MemoryOutOfBounds` with that address and changes nothing else: no byte is written and no register, not even in
range. -/
def Obligations.AccessBeyondMemoryFaults : Prop :=
  ∀ (x y : Reg) (n : Nibble) (s : State),
    (4095 < s.i.toNat + 2 → exec (.bcd x) s = .next (faulted s .memoryOutOfBounds (s.i.toNat + 2))) ∧
    (4095 < s.i.toNat + x.toNat →
      exec (.store x) s = .next (faulted s .memoryOutOfBounds (s.i.toNat + x.toNat)) ∧
      exec (.load x) s = .next (faulted s .memoryOutOfBounds (s.i.toNat + x.toNat))) ∧
    (0 < n.toNat → 4095 < s.i.toNat + n.toNat - 1 →
      exec (.drw x y n) s = .next (faulted s .memoryOutOfBounds (s.i.toNat + n.toNat - 1)))

/-- R195, R196: what STORE wrote, LOAD at the same index brings back, whatever the registers hold by then. -/
def Obligations.LoadUndoesStore : Prop :=
  ∀ (x : Reg) (s t u w : State), s.indexAddr x.toNat ≤ 4095 → exec (.store x) s = .next t →
    u.mem = t.mem → u.i = s.i → exec (.load x) u = .next w → ∀ r : Reg, r.toNat ≤ x.toNat → w.getV r = s.getV r

/-- R72: instruction fetch sees a store at once: after a STORE of two registers or more over the word that follows it,
the next tick fetches the stored bytes. -/
def Obligations.FetchSeesStores : Prop :=
  ∀ (x : Reg) (s t : State), 1 ≤ x.toNat → s.i = s.pc + 2 → s.indexAddr x.toNat ≤ 4095 →
    exec (.store x) s = .next t → t.fetchWord.toNat = (s.getV 0).toNat * 256 + (s.getV 1).toNat

/-! ### Display (44_display.md) -/

/-- R211: CLS leaves all 2048 cells unlit and changes nothing else. -/
def Obligations.ClsClearsDisplay : Prop :=
  decode 0x00E0#16 = some .cls ∧
  ∀ s : State, Completes .cls s fun t =>
    (∀ p, t.fb.lit p = false) ∧ SameRegsBut [] s t ∧ t.pc = s.pc + 2 ∧ SameRest s { t with fb := s.fb }

/-- R212, R213 in bounds (`n = 0` always): DRW toggles exactly the cells under set bits of the sprite, each once, both
coordinates wrapping; `VF` ends 1 exactly when one of them was lit; nothing else changes. The position of a bit in its
row is the spec's decision D15 (log entry 5), the bound D6. -/
def Obligations.DrwXorsSprite : Prop :=
  ∀ (x y : Reg) (n : Nibble) (s : State), decode (0xD#4 ++ x ++ y ++ n) = some (.drw x y n) ∧
    (n.toNat = 0 ∨ s.indexAddr (n.toNat - 1) ≤ 4095 → Completes (.drw x y n) s fun t =>
      (∀ p, t.fb.lit p ≠ s.fb.lit p ↔ UnderSprite s x y n p) ∧
      ((∃ p, UnderSprite s x y n p ∧ s.fb.lit p = true) → t.getV VF = 1) ∧
      ((∀ p, UnderSprite s x y n p → s.fb.lit p = false) → t.getV VF = 0) ∧
      SameRegsBut [VF] s t ∧ t.pc = s.pc + 2 ∧ SameRest s { t with fb := s.fb })

/-- R212's example in general: the same sprite drawn again in the same place (its position not in `VF`) restores every
cell, and the second draw collides exactly when the sprite has a set bit, given that the first met no lit cell. -/
def Obligations.DrwTwiceRestoresDisplay : Prop :=
  ∀ (x y : Reg) (n : Nibble) (s t u : State), x ≠ VF → y ≠ VF → (n.toNat = 0 ∨ s.indexAddr (n.toNat - 1) ≤ 4095) →
    exec (.drw x y n) s = .next t → exec (.drw x y n) t = .next u →
    SameDisplay s u ∧
    ((∀ p, UnderSprite s x y n p → s.fb.lit p = false) → (u.getV VF = 1 ↔ ∃ p, UnderSprite s x y n p))

/-! ### Keypad and timers (45_keypad_timers.md, 60_exceptions.md) -/

/-- R221, R222: with a key index of 0 to 15, SKP skips when the key is down and SKNP when it is up; nothing but `pc`
changes. An index above 15 raises `KeyIndexOutOfRange` with the whole value and changes nothing else (R246, the spec's
decision D7). -/
def Obligations.KeySkips : Prop :=
  ∀ (x : Reg) (s : State),
    decode (0xE#4 ++ x ++ 0x9E#8) = some (.skp x) ∧ decode (0xE#4 ++ x ++ 0xA1#8) = some (.sknp x) ∧
    (∀ k : Fin 16, (s.getV x).toNat = k.val →
      (Completes (.skp x) s fun t =>
        t.pc = (if s.key.get k = true then s.pc + 4 else s.pc + 2) ∧ SameRegsBut [] s t ∧ SameRest s t) ∧
      (Completes (.sknp x) s fun t =>
        t.pc = (if s.key.get k = true then s.pc + 2 else s.pc + 4) ∧ SameRegsBut [] s t ∧ SameRest s t)) ∧
    (15 < (s.getV x).toNat →
      exec (.skp x) s = .next (faulted s .keyIndexOutOfRange (s.getV x).toNat) ∧
      exec (.sknp x) s = .next (faulted s .keyIndexOutOfRange (s.getV x).toNat))

/-- R223: with no key down, a tick of WAITK changes nothing at all; otherwise `Vx` gets the least index of a key that is
down. That it is the least is the spec's decision D16 (log entry 9). -/
def Obligations.WaitkPollsForTheLeastKey : Prop :=
  ∀ (x : Reg) (s : State), decode (0xF#4 ++ x ++ 0x0A#8) = some (.waitk x) ∧
    ((∀ k, s.key.get k = false) → exec (.waitk x) s = .next s) ∧
    ∀ k : Fin 16, s.key.get k = true → (∀ j, j < k → s.key.get j = false) →
      Completes (.waitk x) s fun t =>
        (t.getV x).toNat = k.val ∧ SameRegsBut [x] s t ∧ t.pc = s.pc + 2 ∧ SameRest s t

/-- R224 to R226: GETDT, SETDT, SETST. -/
def Obligations.TimerAccess : Prop :=
  ∀ (x : Reg) (s : State),
    decode (0xF#4 ++ x ++ 0x07#8) = some (.getdt x) ∧ decode (0xF#4 ++ x ++ 0x15#8) = some (.setdt x) ∧
    decode (0xF#4 ++ x ++ 0x18#8) = some (.setst x) ∧
    (Completes (.getdt x) s fun t =>
      t.getV x = s.dt ∧ SameRegsBut [x] s t ∧ t.pc = s.pc + 2 ∧ SameRest s t) ∧
    (Completes (.setdt x) s fun t =>
      t.dt = s.getV x ∧ SameRegsBut [] s t ∧ t.pc = s.pc + 2 ∧ SameRest s { t with dt := s.dt }) ∧
    (Completes (.setst x) s fun t =>
      t.st = s.getV x ∧ SameRegsBut [] s t ∧ t.pc = s.pc + 2 ∧ SameRest s { t with st := s.st })

/-- R252: `tick_timers` takes 1 from each timer that is above 0, and touches nothing else; no instruction but SETDT and
SETST changes a timer. -/
def Obligations.TickTimersCountDown : Prop :=
  (∀ s : State,
    (tickTimers s).dt.toNat = s.dt.toNat - 1 ∧ (tickTimers s).st.toNat = s.st.toNat - 1 ∧
    tickTimers s = { s with dt := (tickTimers s).dt, st := (tickTimers s).st }) ∧
  ∀ (i : Instr) (s t : State), exec i s = .next t →
    ((∀ x, i ≠ .setdt x) → t.dt = s.dt) ∧ ((∀ x, i ≠ .setst x) → t.st = s.st)

/-- R254: `key_event` sets the one key it names and nothing else. The index is 4 bits wide (the spec's decision D21). -/
def Obligations.KeyEventSetsOneKey : Prop :=
  ∀ (k : Nibble) (pressed : Bool) (s : State),
    (∀ j : Fin 16, (keyEvent k pressed s).key.get j = if j.val = k.toNat then pressed else s.key.get j) ∧
    keyEvent k pressed s = { s with key := (keyEvent k pressed s).key }

/-- R282, R284: `load` puts byte `j` of the image at `512 + j` and changes nothing else, the latch included (the spec's
decision D27); R283: an image of more than 3584 bytes is refused and changes nothing (D21). -/
def Obligations.LoadCopiesImage : Prop :=
  ∀ (bytes : List Byte) (s : State),
    (bytes.length ≤ 3584 → ∃ t, loadImage bytes s = .next t ∧
      (∀ (j : Nat) (h : j < bytes.length), t.mem.read (512 + j) = bytes[j]) ∧
      SameMemoryOutside 512 bytes.length s t ∧ t = { s with mem := t.mem }) ∧
    (3584 < bytes.length →
      loadImage bytes s = .refused (.imageTooLong bytes.length) ∧ (Operation.load bytes).after s = s)

/-- R37, R280: what `reset` leaves, on a machine with any glyph table. The zeros of memory at 80 to 4095 and the unlit
cells are the spec's decisions D12, D13, the empty latch D2; no byte of a table is stated (log entry 1). From 4096 up there
is no memory (R60, R61): the zero `Memory.read` answers there is the model's own, no rule of the spec (DESIGN CHOICE, log
entry 18). The count of draws stands, a field of the model's own (log entry 2). -/
def Obligations.ResetRestoresEverything : Prop :=
  ∀ s : State,
    (∀ r, (resetCore s).getV r = 0) ∧ (resetCore s).i = 0 ∧ (resetCore s).pc = 512 ∧
    (∀ k, (resetCore s).stack.get k = 0) ∧ (resetCore s).sp = 0 ∧ (resetCore s).dt = 0 ∧ (resetCore s).st = 0 ∧
    (∀ k, (resetCore s).key.get k = false) ∧ (∀ p, (resetCore s).fb.lit p = false) ∧ (resetCore s).fault = none ∧
    (∀ (a : Nat) (h : a < 80), (resetCore s).mem.read a = s.mem.glyphs[a]) ∧
    (∀ a, 80 ≤ a → (resetCore s).mem.read a = 0) ∧
    (resetCore s).mem.glyphs = s.mem.glyphs ∧ (resetCore s).draws = s.draws

/-- R285: after `reset` and `load` of an image of two bytes or more, the first tick executes the word of the image's
first two bytes, on the state they left. -/
def Obligations.BootRunsTheImage : Prop :=
  ∀ (hi lo : Byte) (rest : List Byte) (s : State) (i : Instr), rest.length ≤ 3582 →
    decode (composeWord hi lo) = some i →
    step (runOperations [.reset, .load (hi :: lo :: rest)] s) =
      exec i (runOperations [.reset, .load (hi :: lo :: rest)] s)

/-- R33, R255, R256, R258: the snapshot gives the cell at column `x` and row `y` at place `x + 64*y`; the sound level is
`ST`; the fault status is the latch (the spec's decision D2). -/
def Obligations.QueriesShowTheState : Prop :=
  ∀ (s : State) (p : Pixel) (h : p.col.val + 64 * p.row.val < 2048),
    (displaySnapshot s)[p.col.val + 64 * p.row.val] = s.fb.lit p ∧ audioLevel s = s.st ∧ faultStatus s = s.fault
end

