-- ==== Sys2Proof/Laws/Decode.lean ====
section
/-! SUPPORT. The fields of a word laid out from its parts, in each of the formats of 30_encoding.md R91, and a word as
the concatenation of its fields. -/

namespace Sys2Proof

open BitVec (extractLsb'_append_eq_of_le extractLsb'_append_eq_of_add_le extractLsb'_eq_self)

/-- A vector is its upper bits on its lower bits. -/
theorem append_extract {m n : Nat} (w : BitVec (m + n)) : w.extractLsb' n m ++ w.extractLsb' 0 n = w := by
  apply BitVec.eq_of_getLsbD_eq
  intro i hi
  rw [BitVec.getLsbD_append]
  by_cases h : i < n
  · simp [h]
  · have h1 : n + (i - n) = i := by omega
    have h2 : i - n < m := by omega
    simp [h, h1, h2]

/-- A field of adjacent bits is its upper part on its lower part. -/
theorem extract_split (w : Word) (k m n : Nat) :
    w.extractLsb' k (m + n) = w.extractLsb' (k + n) m ++ w.extractLsb' k n := by
  apply BitVec.eq_of_getLsbD_eq
  intro i hi
  rw [BitVec.getLsbD_append]
  by_cases h : i < n
  · have : i < m + n := by omega
    simp [h, this]
  · have h1 : k + n + (i - n) = k + i := by omega
    have h2 : i - n < m := by omega
    simp [h, h1, h2, hi]

/-! ### Format NNN -/

@[simp] theorem fieldD1_nnn (g : Nibble) (a : Addr) : fieldD1 (g ++ a) = g :=
  (extractLsb'_append_eq_of_le (by omega)).trans extractLsb'_eq_self

@[simp] theorem fieldNNN_nnn (g : Nibble) (a : Addr) : fieldNNN (g ++ a) = a :=
  (extractLsb'_append_eq_of_add_le (by omega)).trans extractLsb'_eq_self

/-! ### Formats XNN and X -/

@[simp] theorem fieldD1_xnn (g x : Nibble) (b : Byte) : fieldD1 (g ++ x ++ b) = g :=
  (extractLsb'_append_eq_of_le (by omega)).trans
    ((extractLsb'_append_eq_of_le (by omega)).trans extractLsb'_eq_self)

@[simp] theorem fieldX_xnn (g x : Nibble) (b : Byte) : fieldX (g ++ x ++ b) = x :=
  (extractLsb'_append_eq_of_le (by omega)).trans
    ((extractLsb'_append_eq_of_add_le (by omega)).trans extractLsb'_eq_self)

@[simp] theorem fieldNN_xnn (g x : Nibble) (b : Byte) : fieldNN (g ++ x ++ b) = b :=
  (extractLsb'_append_eq_of_add_le (by omega)).trans extractLsb'_eq_self

/-! ### Formats XY and XYN -/

@[simp] theorem fieldD1_xyn (g x y n : Nibble) : fieldD1 (g ++ x ++ y ++ n) = g :=
  (extractLsb'_append_eq_of_le (by omega)).trans ((extractLsb'_append_eq_of_le (by omega)).trans
    ((extractLsb'_append_eq_of_le (by omega)).trans extractLsb'_eq_self))

@[simp] theorem fieldX_xyn (g x y n : Nibble) : fieldX (g ++ x ++ y ++ n) = x :=
  (extractLsb'_append_eq_of_le (by omega)).trans ((extractLsb'_append_eq_of_le (by omega)).trans
    ((extractLsb'_append_eq_of_add_le (by omega)).trans extractLsb'_eq_self))

@[simp] theorem fieldY_xyn (g x y n : Nibble) : fieldY (g ++ x ++ y ++ n) = y :=
  (extractLsb'_append_eq_of_le (by omega)).trans
    ((extractLsb'_append_eq_of_add_le (by omega)).trans extractLsb'_eq_self)

@[simp] theorem fieldN_xyn (g x y n : Nibble) : fieldN (g ++ x ++ y ++ n) = n :=
  (extractLsb'_append_eq_of_add_le (by omega)).trans extractLsb'_eq_self

/-! ### A word is its fields -/

theorem word_eq_nnn (w : Word) : w = fieldD1 w ++ fieldNNN w := (append_extract (m := 4) (n := 12) w).symm

theorem word_eq_xnn (w : Word) : w = fieldD1 w ++ fieldX w ++ fieldNN w := by
  have h : w = w.extractLsb' 8 8 ++ w.extractLsb' 0 8 := (append_extract (m := 8) (n := 8) w).symm
  rw [show w.extractLsb' 8 8 = w.extractLsb' 12 4 ++ w.extractLsb' 8 4 from extract_split w 8 4 4] at h
  exact h

theorem word_eq_xyn (w : Word) : w = fieldD1 w ++ fieldX w ++ fieldY w ++ fieldN w := by
  have h : w = w.extractLsb' 4 12 ++ w.extractLsb' 0 4 := (append_extract (m := 12) (n := 4) w).symm
  rw [show w.extractLsb' 4 12 = w.extractLsb' 8 8 ++ w.extractLsb' 4 4 from extract_split w 4 8 4,
    show w.extractLsb' 8 8 = w.extractLsb' 12 4 ++ w.extractLsb' 8 4 from extract_split w 8 4 4] at h
  exact h

/-- The two bytes of a word, put together again, are the word (20_memory.md R62). -/
@[simp] theorem composeWord_bytes (w : Word) : composeWord (highByte w) (lowByte w) = w :=
  append_extract (m := 8) (n := 8) w

/-! ### Masks of the opcode map (30_encoding.md R93, R94) -/

theorem append_inj {m n : Nat} (a c : BitVec m) (b d : BitVec n) : a ++ b = c ++ d ↔ a = c ∧ b = d := by
  constructor
  · intro h
    have h1 := congrArg (fun w => BitVec.extractLsb' n m w) h
    have h2 := congrArg (fun w => BitVec.extractLsb' 0 n w) h
    simp only [extractLsb'_append_eq_of_le (Nat.le_refl n), extractLsb'_append_eq_of_add_le (show 0 + n ≤ n by omega),
      Nat.sub_self, extractLsb'_eq_self] at h1 h2
    exact ⟨h1, h2⟩
  · rintro ⟨rfl, rfl⟩
    rfl

/-- Format NNN, XNN, XYN: the mask reads `d1`. -/
theorem mask_d1 (w : Word) (g : Nibble) : w &&& 0xF000#16 = g ++ 0#12 ↔ fieldD1 w = g := by
  have e : w &&& 0xF000#16 = (fieldD1 w &&& 0xF#4) ++ (fieldNNN w &&& 0#12) := by
    conv_lhs => rw [word_eq_nnn w, show 0xF000#16 = 0xF#4 ++ 0#12 from rfl]
    exact BitVec.and_append
  rw [e, show fieldD1 w &&& 0xF#4 = fieldD1 w from BitVec.and_allOnes,
    show fieldNNN w &&& 0#12 = 0#12 from BitVec.and_zero]
  exact (append_inj (fieldD1 w) g 0#12 0#12).trans (and_iff_left rfl)

/-- Format XY: the mask reads `d1` and the low nibble. -/
theorem mask_d1_n (w : Word) (g n : Nibble) :
    w &&& 0xF00F#16 = g ++ 0#8 ++ n ↔ fieldD1 w = g ∧ fieldN w = n := by
  have e : w &&& 0xF00F#16 = ((fieldD1 w &&& 0xF#4) ++ ((fieldX w ++ fieldY w) &&& 0#8)) ++ (fieldN w &&& 0xF#4) := by
    conv_lhs => rw [word_eq_xyn w, show 0xF00F#16 = (0xF#4 ++ 0x0#4 ++ 0x0#4) ++ 0xF#4 from rfl]
    refine (BitVec.and_append (x₁ := fieldD1 w ++ fieldX w ++ fieldY w)).trans ?_
    rw [show fieldN w &&& 0xF#4 = fieldN w from BitVec.and_allOnes,
      show (fieldX w ++ fieldY w) &&& 0#8 = 0#8 from BitVec.and_zero]
    congr 1
    rw [BitVec.append_assoc, show 0xF#4 ++ 0x0#4 ++ 0x0#4 = 0xF#4 ++ 0#8 from rfl]
    refine (BitVec.and_append (x₁ := fieldD1 w)).trans ?_
    congr 1
    exact BitVec.and_zero
  rw [e, show fieldD1 w &&& 0xF#4 = fieldD1 w from BitVec.and_allOnes,
    show fieldN w &&& 0xF#4 = fieldN w from BitVec.and_allOnes,
    show (fieldX w ++ fieldY w) &&& 0#8 = 0#8 from BitVec.and_zero]
  exact (append_inj _ _ (fieldN w) n).trans (and_congr_left' ((append_inj _ _ 0#8 0#8).trans (and_iff_left rfl)))

/-- Format X: the mask reads `d1` and the low byte. -/
theorem mask_d1_nn (w : Word) (g : Nibble) (b : Byte) :
    w &&& 0xF0FF#16 = g ++ 0#4 ++ b ↔ fieldD1 w = g ∧ fieldNN w = b := by
  have e : w &&& 0xF0FF#16 = ((fieldD1 w &&& 0xF#4) ++ (fieldX w &&& 0#4)) ++ (fieldNN w &&& 0xFF#8) := by
    conv_lhs => rw [word_eq_xnn w, show 0xF0FF#16 = (0xF#4 ++ 0x0#4) ++ 0xFF#8 from rfl]
    refine (BitVec.and_append (x₁ := fieldD1 w ++ fieldX w)).trans ?_
    congr 1
    exact BitVec.and_append
  rw [e, show fieldD1 w &&& 0xF#4 = fieldD1 w from BitVec.and_allOnes,
    show fieldNN w &&& 0xFF#8 = fieldNN w from BitVec.and_allOnes,
    show fieldX w &&& 0#4 = 0#4 from BitVec.and_zero]
  exact (append_inj _ _ (fieldNN w) b).trans (and_congr_left' ((append_inj _ _ 0#4 0#4).trans (and_iff_left rfl)))

/-! ### Operand numbers placed in a word (R92, R100) -/

theorem place_nnn (a : Addr) : Slot.place .nnn a.toNat = 0#4 ++ a := by
  apply BitVec.eq_of_toNat_eq
  have := a.isLt
  rw [BitVec.toNat_append]
  simp [Slot.place, Slot.lo]
  omega

theorem place_nn (b : Byte) : Slot.place .nn b.toNat = 0#4 ++ 0#4 ++ b := by
  apply BitVec.eq_of_toNat_eq
  have := b.isLt
  rw [BitVec.toNat_append]
  simp [Slot.place, Slot.lo]
  omega

theorem place_x (x : Reg) : Slot.place .x x.toNat = 0#4 ++ x ++ 0#8 := by
  apply BitVec.eq_of_toNat_eq
  have := x.isLt
  rw [BitVec.toNat_append, BitVec.toNat_append]
  simp [Slot.place, Slot.lo, Nat.shiftLeft_eq]
  omega

theorem place_y (y : Reg) : Slot.place .y y.toNat = 0#4 ++ 0#4 ++ y ++ 0#4 := by
  apply BitVec.eq_of_toNat_eq
  have := y.isLt
  rw [BitVec.toNat_append, BitVec.toNat_append]
  simp [Slot.place, Slot.lo, Nat.shiftLeft_eq]
  omega

theorem place_n (n : Nibble) : Slot.place .n n.toNat = 0#4 ++ 0#4 ++ 0#4 ++ n := by
  apply BitVec.eq_of_toNat_eq
  have := n.isLt
  rw [BitVec.toNat_append]
  simp [Slot.place, Slot.lo]
  omega

theorem or_nnn (g h : Nibble) (a b : Addr) : (g ++ a : Word) ||| (h ++ b) = (g ||| h) ++ (a ||| b) :=
  (BitVec.or_append (x₁ := g)).trans rfl

theorem or_xyn (g x y n g' x' y' n' : Nibble) : (g ++ x ++ y ++ n : Word) ||| (g' ++ x' ++ y' ++ n') =
    (g ||| g') ++ (x ||| x') ++ (y ||| y') ++ (n ||| n') := by
  refine (BitVec.or_append (x₁ := g ++ x ++ y)).trans ?_
  congr 1
  refine (BitVec.or_append (x₁ := g ++ x)).trans ?_
  congr 1
  exact BitVec.or_append

end Sys2Proof
end

