-- ==== Sys2Proof/Laws/FrameBuffer.lean ====
section
/-! SUPPORT. The laws of the framebuffer: one toggle, and a sequence of toggles of distinct cells. -/

namespace Sys2Proof.Machine

@[simp] theorem FrameBuffer.lit_clear (p : Pixel) : FrameBuffer.clear.lit p = false := by
  simp [FrameBuffer.lit, FrameBuffer.clear, Vector.get_eq_getElem]

/-- A toggle flips its own cell and leaves every other. -/
theorem FrameBuffer.lit_toggle (fb : FrameBuffer) (p q : Pixel) :
    (fb.toggle p).lit q = (fb.lit q ^^ decide (q = p)) := by
  obtain ⟨pc, pr⟩ := p
  obtain ⟨qc, qr⟩ := q
  have hq : qc.val < 64 := qc.isLt
  by_cases hr : qr = pr
  · subst hr
    simp [FrameBuffer.lit, FrameBuffer.toggle, Vector.get_eq_getElem, hq, Fin.ext_iff, eq_comm]
  · have : pr.val ≠ qr.val := fun e => hr (Fin.ext e.symm)
    simp [FrameBuffer.lit, FrameBuffer.toggle, Vector.get_eq_getElem, Vector.getElem_set_ne, hr, this]

theorem foldl_drawPixel_lit (ps : List Pixel) (acc : FrameBuffer × Bool) (distinct : ps.Nodup) (q : Pixel) :
    (ps.foldl drawPixel acc).1.lit q = (acc.1.lit q ^^ decide (q ∈ ps)) := by
  induction ps generalizing acc with
  | nil => simp
  | cons p ps ih =>
    obtain ⟨hp, hps⟩ := List.nodup_cons.1 distinct
    rw [List.foldl_cons, ih _ hps, drawPixel, FrameBuffer.lit_toggle]
    by_cases h : q = p
    · subst h; simp [hp]
    · simp [h]

theorem foldl_drawPixel_hit (ps : List Pixel) (acc : FrameBuffer × Bool) (distinct : ps.Nodup) :
    (ps.foldl drawPixel acc).2 = (acc.2 || ps.any fun p => acc.1.lit p) := by
  induction ps generalizing acc with
  | nil => simp
  | cons p ps ih =>
    obtain ⟨hp, hps⟩ := List.nodup_cons.1 distinct
    have same : (ps.any fun q => (acc.1.toggle p).lit q) = ps.any fun q => acc.1.lit q := by
      rw [Bool.eq_iff_iff, List.any_eq_true, List.any_eq_true]
      refine exists_congr fun q => and_congr_right fun hq => ?_
      have : q ≠ p := fun e => hp (e ▸ hq)
      simp [FrameBuffer.lit_toggle, this]
    rw [List.foldl_cons, ih _ hps, drawPixel, same]
    simp [Bool.or_assoc]

/-- Drawing distinct cells flips exactly those. -/
theorem drawPixels_lit (fb : FrameBuffer) (ps : List Pixel) (distinct : ps.Nodup) (q : Pixel) :
    (drawPixels fb ps).1.lit q = (fb.lit q ^^ decide (q ∈ ps)) := foldl_drawPixel_lit ps (fb, false) distinct q

/-- Drawing distinct cells collides exactly when one of them was lit before. -/
theorem drawPixels_hit (fb : FrameBuffer) (ps : List Pixel) (distinct : ps.Nodup) :
    (drawPixels fb ps).2 = ps.any fun p => fb.lit p := by
  rw [drawPixels, foldl_drawPixel_hit ps (fb, false) distinct, Bool.false_or]

end Sys2Proof.Machine
end

