-- ==== Sys2Proof/Laws/State.lean ====
section
/-! SUPPORT. One lemma per field per update of the state, each true by `rfl`, so that no later proof unfolds a record
update; and the register file read after a write. -/

namespace Sys2Proof.Machine

variable (s : State)

/-! ### `setV` -/

@[simp] theorem State.setV_mem (r : Reg) (b : Byte) : (s.setV r b).mem = s.mem := rfl
@[simp] theorem State.setV_v (r : Reg) (b : Byte) : (s.setV r b).v = s.v.set r.toNat b r.isLt := rfl
@[simp] theorem State.setV_i (r : Reg) (b : Byte) : (s.setV r b).i = s.i := rfl
@[simp] theorem State.setV_pc (r : Reg) (b : Byte) : (s.setV r b).pc = s.pc := rfl
@[simp] theorem State.setV_stack (r : Reg) (b : Byte) : (s.setV r b).stack = s.stack := rfl
@[simp] theorem State.setV_sp (r : Reg) (b : Byte) : (s.setV r b).sp = s.sp := rfl
@[simp] theorem State.setV_dt (r : Reg) (b : Byte) : (s.setV r b).dt = s.dt := rfl
@[simp] theorem State.setV_st (r : Reg) (b : Byte) : (s.setV r b).st = s.st := rfl
@[simp] theorem State.setV_key (r : Reg) (b : Byte) : (s.setV r b).key = s.key := rfl
@[simp] theorem State.setV_fb (r : Reg) (b : Byte) : (s.setV r b).fb = s.fb := rfl
@[simp] theorem State.setV_fault (r : Reg) (b : Byte) : (s.setV r b).fault = s.fault := rfl
@[simp] theorem State.setV_draws (r : Reg) (b : Byte) : (s.setV r b).draws = s.draws := rfl
@[simp] theorem State.setV_indexAddr (r : Reg) (b : Byte) (k : Nat) : (s.setV r b).indexAddr k = s.indexAddr k := rfl

/-! ### `setPc` -/

@[simp] theorem State.setPc_mem (a : Word) : (s.setPc a).mem = s.mem := rfl
@[simp] theorem State.setPc_v (a : Word) : (s.setPc a).v = s.v := rfl
@[simp] theorem State.setPc_i (a : Word) : (s.setPc a).i = s.i := rfl
@[simp] theorem State.setPc_pc (a : Word) : (s.setPc a).pc = a := rfl
@[simp] theorem State.setPc_stack (a : Word) : (s.setPc a).stack = s.stack := rfl
@[simp] theorem State.setPc_sp (a : Word) : (s.setPc a).sp = s.sp := rfl
@[simp] theorem State.setPc_dt (a : Word) : (s.setPc a).dt = s.dt := rfl
@[simp] theorem State.setPc_st (a : Word) : (s.setPc a).st = s.st := rfl
@[simp] theorem State.setPc_key (a : Word) : (s.setPc a).key = s.key := rfl
@[simp] theorem State.setPc_fb (a : Word) : (s.setPc a).fb = s.fb := rfl
@[simp] theorem State.setPc_fault (a : Word) : (s.setPc a).fault = s.fault := rfl
@[simp] theorem State.setPc_draws (a : Word) : (s.setPc a).draws = s.draws := rfl
@[simp] theorem State.setPc_getV (a : Word) (r : Reg) : (s.setPc a).getV r = s.getV r := rfl
@[simp] theorem State.setPc_indexAddr (a : Word) (k : Nat) : (s.setPc a).indexAddr k = s.indexAddr k := rfl

/-! ### `setI` -/

@[simp] theorem State.setI_mem (a : Word) : (s.setI a).mem = s.mem := rfl
@[simp] theorem State.setI_v (a : Word) : (s.setI a).v = s.v := rfl
@[simp] theorem State.setI_i (a : Word) : (s.setI a).i = a := rfl
@[simp] theorem State.setI_pc (a : Word) : (s.setI a).pc = s.pc := rfl
@[simp] theorem State.setI_stack (a : Word) : (s.setI a).stack = s.stack := rfl
@[simp] theorem State.setI_sp (a : Word) : (s.setI a).sp = s.sp := rfl
@[simp] theorem State.setI_dt (a : Word) : (s.setI a).dt = s.dt := rfl
@[simp] theorem State.setI_st (a : Word) : (s.setI a).st = s.st := rfl
@[simp] theorem State.setI_key (a : Word) : (s.setI a).key = s.key := rfl
@[simp] theorem State.setI_fb (a : Word) : (s.setI a).fb = s.fb := rfl
@[simp] theorem State.setI_fault (a : Word) : (s.setI a).fault = s.fault := rfl
@[simp] theorem State.setI_draws (a : Word) : (s.setI a).draws = s.draws := rfl
@[simp] theorem State.setI_getV (a : Word) (r : Reg) : (s.setI a).getV r = s.getV r := rfl

/-! ### `setDt` -/

@[simp] theorem State.setDt_mem (b : Byte) : (s.setDt b).mem = s.mem := rfl
@[simp] theorem State.setDt_v (b : Byte) : (s.setDt b).v = s.v := rfl
@[simp] theorem State.setDt_i (b : Byte) : (s.setDt b).i = s.i := rfl
@[simp] theorem State.setDt_pc (b : Byte) : (s.setDt b).pc = s.pc := rfl
@[simp] theorem State.setDt_stack (b : Byte) : (s.setDt b).stack = s.stack := rfl
@[simp] theorem State.setDt_sp (b : Byte) : (s.setDt b).sp = s.sp := rfl
@[simp] theorem State.setDt_dt (b : Byte) : (s.setDt b).dt = b := rfl
@[simp] theorem State.setDt_st (b : Byte) : (s.setDt b).st = s.st := rfl
@[simp] theorem State.setDt_key (b : Byte) : (s.setDt b).key = s.key := rfl
@[simp] theorem State.setDt_fb (b : Byte) : (s.setDt b).fb = s.fb := rfl
@[simp] theorem State.setDt_fault (b : Byte) : (s.setDt b).fault = s.fault := rfl
@[simp] theorem State.setDt_draws (b : Byte) : (s.setDt b).draws = s.draws := rfl
@[simp] theorem State.setDt_getV (b : Byte) (r : Reg) : (s.setDt b).getV r = s.getV r := rfl
@[simp] theorem State.setDt_indexAddr (b : Byte) (k : Nat) : (s.setDt b).indexAddr k = s.indexAddr k := rfl

/-! ### `setSt` -/

@[simp] theorem State.setSt_mem (b : Byte) : (s.setSt b).mem = s.mem := rfl
@[simp] theorem State.setSt_v (b : Byte) : (s.setSt b).v = s.v := rfl
@[simp] theorem State.setSt_i (b : Byte) : (s.setSt b).i = s.i := rfl
@[simp] theorem State.setSt_pc (b : Byte) : (s.setSt b).pc = s.pc := rfl
@[simp] theorem State.setSt_stack (b : Byte) : (s.setSt b).stack = s.stack := rfl
@[simp] theorem State.setSt_sp (b : Byte) : (s.setSt b).sp = s.sp := rfl
@[simp] theorem State.setSt_dt (b : Byte) : (s.setSt b).dt = s.dt := rfl
@[simp] theorem State.setSt_st (b : Byte) : (s.setSt b).st = b := rfl
@[simp] theorem State.setSt_key (b : Byte) : (s.setSt b).key = s.key := rfl
@[simp] theorem State.setSt_fb (b : Byte) : (s.setSt b).fb = s.fb := rfl
@[simp] theorem State.setSt_fault (b : Byte) : (s.setSt b).fault = s.fault := rfl
@[simp] theorem State.setSt_draws (b : Byte) : (s.setSt b).draws = s.draws := rfl
@[simp] theorem State.setSt_getV (b : Byte) (r : Reg) : (s.setSt b).getV r = s.getV r := rfl
@[simp] theorem State.setSt_indexAddr (b : Byte) (k : Nat) : (s.setSt b).indexAddr k = s.indexAddr k := rfl

/-! ### `setFb` -/

@[simp] theorem State.setFb_mem (fb : FrameBuffer) : (s.setFb fb).mem = s.mem := rfl
@[simp] theorem State.setFb_v (fb : FrameBuffer) : (s.setFb fb).v = s.v := rfl
@[simp] theorem State.setFb_i (fb : FrameBuffer) : (s.setFb fb).i = s.i := rfl
@[simp] theorem State.setFb_pc (fb : FrameBuffer) : (s.setFb fb).pc = s.pc := rfl
@[simp] theorem State.setFb_stack (fb : FrameBuffer) : (s.setFb fb).stack = s.stack := rfl
@[simp] theorem State.setFb_sp (fb : FrameBuffer) : (s.setFb fb).sp = s.sp := rfl
@[simp] theorem State.setFb_dt (fb : FrameBuffer) : (s.setFb fb).dt = s.dt := rfl
@[simp] theorem State.setFb_st (fb : FrameBuffer) : (s.setFb fb).st = s.st := rfl
@[simp] theorem State.setFb_key (fb : FrameBuffer) : (s.setFb fb).key = s.key := rfl
@[simp] theorem State.setFb_fb (fb : FrameBuffer) : (s.setFb fb).fb = fb := rfl
@[simp] theorem State.setFb_fault (fb : FrameBuffer) : (s.setFb fb).fault = s.fault := rfl
@[simp] theorem State.setFb_draws (fb : FrameBuffer) : (s.setFb fb).draws = s.draws := rfl
@[simp] theorem State.setFb_getV (fb : FrameBuffer) (r : Reg) : (s.setFb fb).getV r = s.getV r := rfl
@[simp] theorem State.setFb_indexAddr (fb : FrameBuffer) (k : Nat) : (s.setFb fb).indexAddr k = s.indexAddr k := rfl

/-! ### `advance` -/

@[simp] theorem State.advance_mem : (s.advance).mem = s.mem := rfl
@[simp] theorem State.advance_v : (s.advance).v = s.v := rfl
@[simp] theorem State.advance_i : (s.advance).i = s.i := rfl
@[simp] theorem State.advance_pc : (s.advance).pc = s.pc + 2#16 := rfl
@[simp] theorem State.advance_stack : (s.advance).stack = s.stack := rfl
@[simp] theorem State.advance_sp : (s.advance).sp = s.sp := rfl
@[simp] theorem State.advance_dt : (s.advance).dt = s.dt := rfl
@[simp] theorem State.advance_st : (s.advance).st = s.st := rfl
@[simp] theorem State.advance_key : (s.advance).key = s.key := rfl
@[simp] theorem State.advance_fb : (s.advance).fb = s.fb := rfl
@[simp] theorem State.advance_fault : (s.advance).fault = s.fault := rfl
@[simp] theorem State.advance_draws : (s.advance).draws = s.draws := rfl
@[simp] theorem State.advance_getV (r : Reg) : (s.advance).getV r = s.getV r := rfl
@[simp] theorem State.advance_indexAddr (k : Nat) : (s.advance).indexAddr k = s.indexAddr k := rfl

/-! ### `rewind` -/

@[simp] theorem State.rewind_mem : (s.rewind).mem = s.mem := rfl
@[simp] theorem State.rewind_v : (s.rewind).v = s.v := rfl
@[simp] theorem State.rewind_i : (s.rewind).i = s.i := rfl
@[simp] theorem State.rewind_pc : (s.rewind).pc = s.pc - 2#16 := rfl
@[simp] theorem State.rewind_stack : (s.rewind).stack = s.stack := rfl
@[simp] theorem State.rewind_sp : (s.rewind).sp = s.sp := rfl
@[simp] theorem State.rewind_dt : (s.rewind).dt = s.dt := rfl
@[simp] theorem State.rewind_st : (s.rewind).st = s.st := rfl
@[simp] theorem State.rewind_key : (s.rewind).key = s.key := rfl
@[simp] theorem State.rewind_fb : (s.rewind).fb = s.fb := rfl
@[simp] theorem State.rewind_fault : (s.rewind).fault = s.fault := rfl
@[simp] theorem State.rewind_draws : (s.rewind).draws = s.draws := rfl
@[simp] theorem State.rewind_getV (r : Reg) : (s.rewind).getV r = s.getV r := rfl
@[simp] theorem State.rewind_indexAddr (k : Nat) : (s.rewind).indexAddr k = s.indexAddr k := rfl

/-! ### `storeAtIndex` -/

@[simp] theorem State.storeAtIndex_mem (bs : List Byte) : (s.storeAtIndex bs).mem = s.mem.writeBytes (s.indexAddr 0) bs := rfl
@[simp] theorem State.storeAtIndex_v (bs : List Byte) : (s.storeAtIndex bs).v = s.v := rfl
@[simp] theorem State.storeAtIndex_i (bs : List Byte) : (s.storeAtIndex bs).i = s.i := rfl
@[simp] theorem State.storeAtIndex_pc (bs : List Byte) : (s.storeAtIndex bs).pc = s.pc := rfl
@[simp] theorem State.storeAtIndex_stack (bs : List Byte) : (s.storeAtIndex bs).stack = s.stack := rfl
@[simp] theorem State.storeAtIndex_sp (bs : List Byte) : (s.storeAtIndex bs).sp = s.sp := rfl
@[simp] theorem State.storeAtIndex_dt (bs : List Byte) : (s.storeAtIndex bs).dt = s.dt := rfl
@[simp] theorem State.storeAtIndex_st (bs : List Byte) : (s.storeAtIndex bs).st = s.st := rfl
@[simp] theorem State.storeAtIndex_key (bs : List Byte) : (s.storeAtIndex bs).key = s.key := rfl
@[simp] theorem State.storeAtIndex_fb (bs : List Byte) : (s.storeAtIndex bs).fb = s.fb := rfl
@[simp] theorem State.storeAtIndex_fault (bs : List Byte) : (s.storeAtIndex bs).fault = s.fault := rfl
@[simp] theorem State.storeAtIndex_draws (bs : List Byte) : (s.storeAtIndex bs).draws = s.draws := rfl
@[simp] theorem State.storeAtIndex_getV (bs : List Byte) (r : Reg) : (s.storeAtIndex bs).getV r = s.getV r := rfl
@[simp] theorem State.storeAtIndex_indexAddr (bs : List Byte) (k : Nat) : (s.storeAtIndex bs).indexAddr k = s.indexAddr k := rfl

/-! ### `loadFromIndex` -/

@[simp] theorem State.loadFromIndex_mem (x : Reg) : (s.loadFromIndex x).mem = s.mem := rfl
@[simp] theorem State.loadFromIndex_i (x : Reg) : (s.loadFromIndex x).i = s.i := rfl
@[simp] theorem State.loadFromIndex_pc (x : Reg) : (s.loadFromIndex x).pc = s.pc := rfl
@[simp] theorem State.loadFromIndex_stack (x : Reg) : (s.loadFromIndex x).stack = s.stack := rfl
@[simp] theorem State.loadFromIndex_sp (x : Reg) : (s.loadFromIndex x).sp = s.sp := rfl
@[simp] theorem State.loadFromIndex_dt (x : Reg) : (s.loadFromIndex x).dt = s.dt := rfl
@[simp] theorem State.loadFromIndex_st (x : Reg) : (s.loadFromIndex x).st = s.st := rfl
@[simp] theorem State.loadFromIndex_key (x : Reg) : (s.loadFromIndex x).key = s.key := rfl
@[simp] theorem State.loadFromIndex_fb (x : Reg) : (s.loadFromIndex x).fb = s.fb := rfl
@[simp] theorem State.loadFromIndex_fault (x : Reg) : (s.loadFromIndex x).fault = s.fault := rfl
@[simp] theorem State.loadFromIndex_draws (x : Reg) : (s.loadFromIndex x).draws = s.draws := rfl
@[simp] theorem State.loadFromIndex_indexAddr (x : Reg) (k : Nat) : (s.loadFromIndex x).indexAddr k = s.indexAddr k := rfl

/-! ### `drawRandom` -/

@[simp] theorem State.drawRandom_mem : (s.drawRandom.2).mem = s.mem := rfl
@[simp] theorem State.drawRandom_v : (s.drawRandom.2).v = s.v := rfl
@[simp] theorem State.drawRandom_i : (s.drawRandom.2).i = s.i := rfl
@[simp] theorem State.drawRandom_pc : (s.drawRandom.2).pc = s.pc := rfl
@[simp] theorem State.drawRandom_stack : (s.drawRandom.2).stack = s.stack := rfl
@[simp] theorem State.drawRandom_sp : (s.drawRandom.2).sp = s.sp := rfl
@[simp] theorem State.drawRandom_dt : (s.drawRandom.2).dt = s.dt := rfl
@[simp] theorem State.drawRandom_st : (s.drawRandom.2).st = s.st := rfl
@[simp] theorem State.drawRandom_key : (s.drawRandom.2).key = s.key := rfl
@[simp] theorem State.drawRandom_fb : (s.drawRandom.2).fb = s.fb := rfl
@[simp] theorem State.drawRandom_fault : (s.drawRandom.2).fault = s.fault := rfl
@[simp] theorem State.drawRandom_draws : (s.drawRandom.2).draws = s.draws + 1 := rfl
@[simp] theorem State.drawRandom_getV (r : Reg) : (s.drawRandom.2).getV r = s.getV r := rfl
@[simp] theorem State.drawRandom_indexAddr (k : Nat) : (s.drawRandom.2).indexAddr k = s.indexAddr k := rfl

/-! ### `skipIf` -/

@[simp] theorem State.skipIf_mem (c : Bool) : (s.skipIf c).mem = s.mem := by cases c <;> rfl
@[simp] theorem State.skipIf_v (c : Bool) : (s.skipIf c).v = s.v := by cases c <;> rfl
@[simp] theorem State.skipIf_i (c : Bool) : (s.skipIf c).i = s.i := by cases c <;> rfl
@[simp] theorem State.skipIf_pc (c : Bool) : (s.skipIf c).pc = if c then s.pc + 2#16 else s.pc := by
  cases c <;> rfl
@[simp] theorem State.skipIf_stack (c : Bool) : (s.skipIf c).stack = s.stack := by cases c <;> rfl
@[simp] theorem State.skipIf_sp (c : Bool) : (s.skipIf c).sp = s.sp := by cases c <;> rfl
@[simp] theorem State.skipIf_dt (c : Bool) : (s.skipIf c).dt = s.dt := by cases c <;> rfl
@[simp] theorem State.skipIf_st (c : Bool) : (s.skipIf c).st = s.st := by cases c <;> rfl
@[simp] theorem State.skipIf_key (c : Bool) : (s.skipIf c).key = s.key := by cases c <;> rfl
@[simp] theorem State.skipIf_fb (c : Bool) : (s.skipIf c).fb = s.fb := by cases c <;> rfl
@[simp] theorem State.skipIf_fault (c : Bool) : (s.skipIf c).fault = s.fault := by cases c <;> rfl
@[simp] theorem State.skipIf_draws (c : Bool) : (s.skipIf c).draws = s.draws := by cases c <;> rfl
@[simp] theorem State.skipIf_getV (c : Bool) (r : Reg) : (s.skipIf c).getV r = s.getV r := by cases c <;> rfl

/-! ### `resetCore` -/

@[simp] theorem resetCore_mem : (resetCore s).mem = Memory.reset s.mem.glyphs := rfl
@[simp] theorem resetCore_v : (resetCore s).v = Vector.replicate 16 0#8 := rfl
@[simp] theorem resetCore_i : (resetCore s).i = 0#16 := rfl
@[simp] theorem resetCore_pc : (resetCore s).pc = 512#16 := rfl
@[simp] theorem resetCore_stack : (resetCore s).stack = Vector.replicate 16 0#16 := rfl
@[simp] theorem resetCore_sp : (resetCore s).sp = 0 := rfl
@[simp] theorem resetCore_dt : (resetCore s).dt = 0#8 := rfl
@[simp] theorem resetCore_st : (resetCore s).st = 0#8 := rfl
@[simp] theorem resetCore_key : (resetCore s).key = Vector.replicate 16 false := rfl
@[simp] theorem resetCore_fb : (resetCore s).fb = FrameBuffer.clear := rfl
@[simp] theorem resetCore_fault : (resetCore s).fault = none := rfl
@[simp] theorem resetCore_draws : (resetCore s).draws = s.draws := rfl

/-! ### The register file -/

/-- A register reads as last written, and a write leaves every other register. -/
theorem State.getV_setV (r : Reg) (b : Byte) (q : Reg) :
    (s.setV r b).getV q = if q = r then b else s.getV q := by
  simp only [State.getV, State.setV, Vector.getElem_set, BitVec.toNat_inj, eq_comm]

@[simp] theorem State.getV_setV_self (r : Reg) (b : Byte) : (s.setV r b).getV r = b := by
  rw [State.getV_setV, if_pos rfl]

theorem State.getV_setV_ne {r q : Reg} (b : Byte) (h : q ≠ r) : (s.setV r b).getV q = s.getV q := by
  rw [State.getV_setV, if_neg h]

/-- LOAD's registers: the bytes at `I` upward in `V[0]` to `V[x]`, the others kept. -/
@[simp] theorem State.loadFromIndex_getV (x q : Reg) :
    (s.loadFromIndex x).getV q = if q.toNat ≤ x.toNat then s.mem.read (s.indexAddr q.toNat) else s.getV q := by
  simp [State.loadFromIndex, State.getV, Vector.get_eq_getElem]

end Sys2Proof.Machine
end

