-- ==== Sys2Proof/Laws/Ops.lean ====
section
/-! SUPPORT. For each shared operation, once, everything it can do. -/

namespace Sys2Proof.Machine

variable {s t : State}

/-! ### Taking a fault, and the bound check -/

theorem raise_eq (cause : Cause) (info : Nat) (s : State) : raise cause info s = .next (faulted s cause info) := rfl

/-- The check passes, or it raises; nothing else. -/
theorem checkAccess_cases (len : Nat) (s done : State) :
    ((len = 0 ∨ s.indexAddr (len - 1) ≤ 4095) ∧ checkAccess len s done = .next done) ∨
    (len ≠ 0 ∧ 4095 < s.indexAddr (len - 1) ∧
      checkAccess len s done = .next (faulted s .memoryOutOfBounds (s.indexAddr (len - 1)))) := by
  by_cases h : len ≠ 0 ∧ 4095 < s.indexAddr (len - 1)
  · exact .inr ⟨h.1, h.2, by rw [checkAccess, if_pos h, raise_eq]⟩
  · exact .inl ⟨by omega, by rw [checkAccess, if_neg h]⟩

theorem checkAccess_ok {len : Nat} (s done : State) (h : len = 0 ∨ s.indexAddr (len - 1) ≤ 4095) :
    checkAccess len s done = .next done := by
  rw [checkAccess, if_neg (by omega)]

theorem checkAccess_raises {len : Nat} (s done : State) (h : len ≠ 0) (h' : 4095 < s.indexAddr (len - 1)) :
    checkAccess len s done = .next (faulted s .memoryOutOfBounds (s.indexAddr (len - 1))) := by
  rw [checkAccess, if_pos ⟨h, h'⟩, raise_eq]

theorem resetCore_eq (s : State) : resetCore s = { State.resetWith s.mem.glyphs with draws := s.draws } := rfl

/-! ### The stack -/

theorem State.push_of_room (a : Word) (h : s.sp.val < 16) :
    s.push a = some { s with stack := s.stack.set s.sp.val a h, sp := ⟨s.sp.val + 1, Nat.succ_lt_succ h⟩ } := by
  rw [State.push, dif_pos h]

theorem State.push_of_full (a : Word) (h : s.sp.val = 16) : s.push a = none := by
  rw [State.push, dif_neg (by omega)]

/-- A push writes at the pointer, increments it, and does nothing else. -/
theorem State.push_cases {a : Word} (h : s.push a = some t) :
    ∃ room : s.sp.val < 16, t = { s with stack := s.stack.set s.sp.val a room,
                                         sp := ⟨s.sp.val + 1, Nat.succ_lt_succ room⟩ } := by
  by_cases room : s.sp.val < 16
  · rw [State.push_of_room a room, Option.some.injEq] at h
    exact ⟨room, h.symm⟩
  · rw [State.push, dif_neg room] at h
    cases h

theorem State.pop_of_some (h : s.sp.val ≠ 0) :
    s.pop = some (s.stack[s.sp.val - 1]'(by have := s.sp.isLt; omega),
      { s with sp := ⟨s.sp.val - 1, by have := s.sp.isLt; omega⟩ }) := by
  rw [State.pop, dif_pos h]

theorem State.pop_of_empty (h : s.sp.val = 0) : s.pop = none := by
  rw [State.pop, dif_neg (by omega)]

/-- A pop decrements the pointer, reads there, and does nothing else. -/
theorem State.pop_cases {a : Word} (h : s.pop = some (a, t)) :
    ∃ (_ : s.sp.val ≠ 0) (inside : s.sp.val - 1 < 16),
      a = s.stack[s.sp.val - 1] ∧ t = { s with sp := ⟨s.sp.val - 1, Nat.lt_succ_of_lt inside⟩ } := by
  by_cases h0 : s.sp.val ≠ 0
  · rw [State.pop_of_some h0, Option.some.injEq, Prod.mk.injEq] at h
    exact ⟨h0, by have := s.sp.isLt; omega, h.1.symm, h.2.symm⟩
  · rw [State.pop, dif_neg h0] at h
    cases h

/-! ### Keys -/

theorem keyIndex_of_le {a : Byte} (h : a.toNat < 16) : keyIndex a = some ⟨a.toNat, h⟩ := by
  rw [keyIndex, dif_pos h]

theorem keyIndex_of_gt {a : Byte} (h : 15 < a.toNat) : keyIndex a = none := by
  rw [keyIndex, dif_neg (by omega)]

theorem leastPressed_eq_none (key : Vector Bool 16) : leastPressed key = none ↔ ∀ k : Fin 16, key.get k = false := by
  simp only [leastPressed, List.findIdx?_eq_none_iff, Vector.mem_toList_iff, Vector.mem_iff_getElem]
  constructor
  · intro h k
    exact h _ ⟨k.val, k.isLt, rfl⟩
  · rintro h b ⟨k, hk, rfl⟩
    exact h ⟨k, hk⟩

theorem leastPressed_eq_some (key : Vector Bool 16) (k : Nat) :
    leastPressed key = some k ↔ ∃ h : k < 16, key.get ⟨k, h⟩ = true ∧ ∀ j : Fin 16, j.val < k → key.get j = false := by
  simp only [leastPressed, List.findIdx?_eq_some_iff_getElem, Vector.length_toList, Vector.getElem_toList]
  constructor
  · rintro ⟨h, hk, hj⟩
    exact ⟨h, hk, fun j hjk => by simpa [Vector.get_eq_getElem] using hj j.val hjk⟩
  · rintro ⟨h, hk, hj⟩
    exact ⟨h, hk, fun j hjk => by simpa [Vector.get_eq_getElem] using hj ⟨j, by omega⟩ hjk⟩

/-! ### Registers and digits as numbers -/

@[simp] theorem State.regsUpTo_length (s : State) (x : Reg) : (s.regsUpTo x).length = x.toNat + 1 := by
  have := x.isLt
  simp [State.regsUpTo]
  omega

theorem State.regsUpTo_getElem (s : State) (x r : Reg) (h : r.toNat < (s.regsUpTo x).length) :
    (s.regsUpTo x)[r.toNat] = s.getV r := by
  simp [State.regsUpTo, State.getV]

@[simp] theorem bcdDigits_length (a : Byte) : (bcdDigits a).length = 3 := rfl

@[simp] theorem zextAddr_toNat (nnn : Addr) : (zextAddr nnn).toNat = nnn.toNat := by
  have := nnn.isLt
  simp [zextAddr, BitVec.toNat_setWidth]
  omega

@[simp] theorem zextByte_toNat (b : Byte) : (zextByte b).toNat = b.toNat := by
  have := b.isLt
  simp [zextByte, BitVec.toNat_setWidth]
  omega

@[simp] theorem glyphAddr_toNat (b : Byte) : (glyphAddr b).toNat = b.toNat * 5 := by
  have := b.isLt
  simp [glyphAddr, BitVec.toNat_mul]
  omega

/-! ### The cells of a sprite (44_display.md R212, R213 (b)) -/

theorem mem_spriteRowPixels (vx vy : Byte) (r : Nat) (b : Byte) (p : Pixel) :
    p ∈ spriteRowPixels vx vy r b ↔ ∃ c, c < 8 ∧ spriteBit b c = true ∧ p = spritePixel vx vy r c := by
  simp only [spriteRowPixels, List.mem_map, List.mem_filter, List.mem_range]
  exact ⟨fun ⟨c, ⟨h, hb⟩, e⟩ => ⟨c, h, hb, e.symm⟩, fun ⟨c, h, hb, e⟩ => ⟨c, ⟨h, hb⟩, e.symm⟩⟩

theorem eq_spritePixel (vx vy : Byte) (r c : Nat) (p : Pixel) :
    p = spritePixel vx vy r c ↔ p.col.val = (vx.toNat + c) % 64 ∧ p.row.val = (vy.toNat + r) % 32 := by
  obtain ⟨pc, pr⟩ := p
  simp [spritePixel, Fin.ext_iff]

/-- The cells listed are those under a set bit. -/
theorem State.mem_spritePixels (s : State) (x y : Reg) (n : Nibble) (p : Pixel) :
    p ∈ s.spritePixels x y n ↔ UnderSprite s x y n p := by
  simp only [State.spritePixels, List.mem_flatMap, List.mem_range, mem_spriteRowPixels, eq_spritePixel, UnderSprite,
    spriteBit]
  constructor
  · rintro ⟨r, hr, c, hc, hb, e⟩
    exact ⟨r, c, hr, hc, hb, e⟩
  · rintro ⟨r, c, hr, hc, hb, e⟩
    exact ⟨r, hr, c, hc, hb, e⟩

theorem spriteRowPixels_nodup (vx vy : Byte) (r : Nat) (b : Byte) : (spriteRowPixels vx vy r b).Nodup := by
  refine List.Nodup.map_on ?_ (List.nodup_range.filter _)
  intro c hc d hd e
  simp only [List.mem_filter, List.mem_range] at hc hd
  have := ((eq_spritePixel vx vy r d _).1 e).1
  have := ((eq_spritePixel vx vy r c _).1 (e.symm)).1
  simp [spritePixel] at *
  omega

/-- No two set bits of one sprite land on the same cell. -/
theorem State.spritePixels_nodup (s : State) (x y : Reg) (n : Nibble) : (s.spritePixels x y n).Nodup := by
  have hn := n.isLt
  refine List.nodup_flatMap.2 ⟨fun r _ => spriteRowPixels_nodup _ _ _ _, ?_⟩
  refine List.Pairwise.imp_of_mem ?_ (List.nodup_range (n := n.toNat))
  intro r q hr hq hne
  simp only [List.mem_range] at hr hq
  intro p hp hp'
  obtain ⟨c, -, -, e⟩ := (mem_spriteRowPixels _ _ _ _ _).1 hp
  obtain ⟨d, -, -, e'⟩ := (mem_spriteRowPixels _ _ _ _ _).1 hp'
  have h1 := ((eq_spritePixel _ _ _ _ _).1 e).2
  have h2 := ((eq_spritePixel _ _ _ _ _).1 e').2
  omega

end Sys2Proof.Machine
end

