-- ==== Sys2Proof/Laws/Step.lean ====
section
/-! SUPPORT. What one step can do, and what an operation of the host's leaves. -/

namespace Sys2Proof.Machine

variable {s t : State}

theorem State.halted_iff (s : State) : s.halted = true ↔ ¬ s.running := by
  simp [State.halted, State.running, Option.isSome_iff_ne_none]

theorem fetchDecode_beyond (h : 4094 < s.pc.toNat) : fetchDecode s = .error (.fetchOutOfBounds, s.pc.toNat) := by
  rw [fetchDecode, if_pos h]

theorem fetchDecode_ok {i : Instr} (h : s.fetchable) (hi : decode s.fetchWord = some i) : fetchDecode s = .ok i := by
  rw [fetchDecode, if_neg (by unfold State.fetchable at h; omega), hi]

theorem fetchDecode_illegal (h : s.fetchable) (hi : decode s.fetchWord = none) :
    fetchDecode s = .error (.illegalInstruction, s.fetchWord.toNat) := by
  rw [fetchDecode, if_neg (by unfold State.fetchable at h; omega), hi]

/-- Everything a step can do. -/
theorem step_cases (h : step s = .next t) :
    (¬ s.running ∧ t = s) ∨
    (s.running ∧ 4094 < s.pc.toNat ∧ t = faulted s .fetchOutOfBounds s.pc.toNat) ∨
    (s.running ∧ s.fetchable ∧ decode s.fetchWord = none ∧ t = faulted s .illegalInstruction s.fetchWord.toNat) ∨
    (∃ i, s.running ∧ s.fetchable ∧ decode s.fetchWord = some i ∧ exec i s = .next t) := by
  by_cases hr : s.running
  · have live : s.halted = false := by simpa using (not_congr s.halted_iff).2 (not_not.2 hr)
    rw [step, live, if_neg (by simp)] at h
    by_cases hp : 4094 < s.pc.toNat
    · rw [fetchDecode_beyond hp] at h
      cases h
      exact .inr (.inl ⟨hr, hp, rfl⟩)
    · have hf : s.fetchable := by unfold State.fetchable; omega
      cases hi : decode s.fetchWord with
      | none =>
        rw [fetchDecode_illegal hf hi] at h
        cases h
        exact .inr (.inr (.inl ⟨hr, hf, rfl, rfl⟩))
      | some i =>
        rw [fetchDecode_ok hf hi] at h
        exact .inr (.inr (.inr ⟨i, hr, hf, rfl, h⟩))
  · rw [step, if_pos (s.halted_iff.2 hr)] at h
    cases h
    exact .inl ⟨hr, rfl⟩

/-! ### The host's operations -/

theorem Operation.after_of_next {op : Operation} (h : op.apply s = .next t) : op.after s = t := by
  rw [Operation.after, h]

theorem Operation.after_of_refused {op : Operation} {r : Refusal} (h : op.apply s = .refused r) : op.after s = s := by
  rw [Operation.after, h]

theorem loadImage_of_fits {bytes : List Byte} (h : bytes.length ≤ 3584) :
    loadImage bytes s = .next { s with mem := s.mem.writeBytes 512 bytes } := by
  rw [loadImage, if_pos (by simpa using h), Config.progBase]

theorem loadImage_of_long {bytes : List Byte} (h : 3584 < bytes.length) :
    loadImage bytes s = .refused (.imageTooLong bytes.length) := by
  rw [loadImage, if_neg (by simpa using h)]

/-- An induction over the reachable states, once: it holds at reset and every operation keeps it. -/
theorem Reachable.induction {P : State → Prop} (reset : ∀ glyphs, P (State.resetWith glyphs))
    (keeps : ∀ (op : Operation) s, P s → P (op.after s)) (h : Reachable s) : P s := by
  obtain ⟨glyphs, ops, rfl⟩ := h
  suffices ∀ ops s, P s → P (runOperations ops s) from this ops _ (reset glyphs)
  intro ops
  induction ops with
  | nil => exact fun _ h => h
  | cons op ops ih => exact fun s h => ih _ (keeps op s h)

end Sys2Proof.Machine
end

