-- ==== Sys2Proof/Laws/Exec.lean ====
section
/-! SUPPORT. Inversion: for each instruction with more than one way to end, everything it can do; and the frames the
plain ones share. -/

namespace Sys2Proof.Machine

variable {s t : State}

/-! ### Frames -/

/-- A state that differs from `s` in the register file and `pc` alone. -/
theorem sameRest_of (h : t = { s with v := t.v, pc := t.pc }) : SameRest s t := by
  rw [h]
  exact ⟨rfl, fun _ => rfl, fun _ => rfl, ⟨fun _ => rfl, rfl⟩, ⟨rfl, rfl⟩, fun _ => rfl, rfl, rfl⟩

theorem sameRegsBut_setV (s : State) (x : Reg) (b : Byte) : SameRegsBut [x] s (s.advance.setV x b) := by
  intro r hr
  rw [State.getV_setV_ne _ _ (by simpa using hr)]
  rfl

theorem sameRegsBut_setV_setV (s : State) (x y : Reg) (a b : Byte) :
    SameRegsBut [x, y] s ((s.advance.setV x a).setV y b) := by
  intro r hr
  simp only [List.mem_cons, List.not_mem_nil, or_false, not_or] at hr
  rw [State.getV_setV_ne _ _ hr.2, State.getV_setV_ne _ _ hr.1]
  rfl

theorem State.advance_skipIf_pc (s : State) (c : Bool) :
    (s.advance.skipIf c).pc = if c then s.pc + 4 else s.pc + 2 := by
  cases c
  · rfl
  · exact BitVec.add_assoc _ _ _

theorem sameRest_skipIf (s : State) (c : Bool) : SameRest s (s.advance.skipIf c) := sameRest_of (by cases c <;> rfl)

theorem State.advance_rewind (s : State) : s.advance.rewind = s := by
  cases s
  simp [State.advance, State.rewind, State.setPc]

/-! ### The forms that can raise a fault -/

theorem exec_ret_cases (h : exec .ret s = .next t) :
    (∃ (_ : s.sp.val ≠ 0) (inside : s.sp.val - 1 < 16),
      t = { s with sp := ⟨s.sp.val - 1, Nat.lt_succ_of_lt inside⟩, pc := s.stack[s.sp.val - 1] }) ∨
    (s.sp.val = 0 ∧ t = faulted s .stackUnderflow (encode .ret).toNat) := by
  simp only [exec, execRet] at h
  by_cases a : s.sp.val = 0
  · rw [State.pop_of_empty (show s.advance.sp.val = 0 from a), raise_eq] at h
    cases h
    exact .inr ⟨a, rfl⟩
  · rw [State.pop_of_some (show s.advance.sp.val ≠ 0 from a)] at h
    cases h
    exact .inl ⟨a, by have := s.sp.isLt; omega, rfl⟩

theorem exec_call_cases {nnn : Addr} (h : exec (.call nnn) s = .next t) :
    (∃ room : s.sp.val < 16, t = { s with stack := s.stack.set s.sp.val (s.pc + 2#16) room,
                                          sp := ⟨s.sp.val + 1, Nat.succ_lt_succ room⟩, pc := zextAddr nnn }) ∨
    (s.sp.val = 16 ∧ t = faulted s .stackOverflow (encode (.call nnn)).toNat) := by
  simp only [exec, execCall] at h
  by_cases a : s.sp.val < 16
  · rw [State.push_of_room _ (show s.advance.sp.val < 16 from a)] at h
    cases h
    exact .inl ⟨a, rfl⟩
  · have full : s.sp.val = 16 := by have := s.sp.isLt; omega
    rw [State.push_of_full _ (show s.advance.sp.val = 16 from full), raise_eq] at h
    cases h
    exact .inr ⟨full, rfl⟩

theorem exec_bcd_cases {x : Reg} (h : exec (.bcd x) s = .next t) :
    (s.indexAddr 2 ≤ 4095 ∧ t = s.advance.storeAtIndex (bcdDigits (s.getV x))) ∨
    (4095 < s.indexAddr 2 ∧ t = faulted s .memoryOutOfBounds (s.indexAddr 2)) := by
  simp only [exec, execBcd] at h
  obtain ⟨a, e⟩ | ⟨-, b, e⟩ := checkAccess_cases 3 s (s.advance.storeAtIndex (bcdDigits (s.getV x)))
  · cases h.symm.trans e
    exact .inl ⟨by simpa using a, rfl⟩
  · cases h.symm.trans e
    exact .inr ⟨b, rfl⟩

theorem exec_store_cases {x : Reg} (h : exec (.store x) s = .next t) :
    (s.indexAddr x.toNat ≤ 4095 ∧ t = s.advance.storeAtIndex (s.regsUpTo x)) ∨
    (4095 < s.indexAddr x.toNat ∧ t = faulted s .memoryOutOfBounds (s.indexAddr x.toNat)) := by
  simp only [exec, execStore] at h
  obtain ⟨a, e⟩ | ⟨-, b, e⟩ := checkAccess_cases (x.toNat + 1) s (s.advance.storeAtIndex (s.regsUpTo x))
  · cases h.symm.trans e
    exact .inl ⟨by simpa using a, rfl⟩
  · cases h.symm.trans e
    exact .inr ⟨b, rfl⟩

theorem exec_load_cases {x : Reg} (h : exec (.load x) s = .next t) :
    (s.indexAddr x.toNat ≤ 4095 ∧ t = s.advance.loadFromIndex x) ∨
    (4095 < s.indexAddr x.toNat ∧ t = faulted s .memoryOutOfBounds (s.indexAddr x.toNat)) := by
  simp only [exec, execLoad] at h
  obtain ⟨a, e⟩ | ⟨-, b, e⟩ := checkAccess_cases (x.toNat + 1) s (s.advance.loadFromIndex x)
  · cases h.symm.trans e
    exact .inl ⟨by simpa using a, rfl⟩
  · cases h.symm.trans e
    exact .inr ⟨b, rfl⟩

/-- The state DRW leaves when it raises no fault. -/
abbrev drawn (s : State) (x y : Reg) (n : Nibble) : State :=
  (s.advance.setFb (drawPixels s.fb (s.spritePixels x y n)).1).setV VF
    (collisionFlag (drawPixels s.fb (s.spritePixels x y n)).2)

theorem exec_drw_cases {x y : Reg} {n : Nibble} (h : exec (.drw x y n) s = .next t) :
    ((n.toNat = 0 ∨ s.indexAddr (n.toNat - 1) ≤ 4095) ∧ t = drawn s x y n) ∨
    (n.toNat ≠ 0 ∧ 4095 < s.indexAddr (n.toNat - 1) ∧
      t = faulted s .memoryOutOfBounds (s.indexAddr (n.toNat - 1))) := by
  simp only [exec, execDrw] at h
  obtain ⟨a, e⟩ | ⟨a, b, e⟩ := checkAccess_cases n.toNat s (drawn s x y n)
  · cases h.symm.trans e
    exact .inl ⟨a, rfl⟩
  · cases h.symm.trans e
    exact .inr ⟨a, b, rfl⟩

theorem exec_skp_cases {x : Reg} (h : exec (.skp x) s = .next t) :
    (∃ k : Fin 16, (s.getV x).toNat = k.val ∧ t = s.advance.skipIf (s.key.get k)) ∨
    (15 < (s.getV x).toNat ∧ t = faulted s .keyIndexOutOfRange (s.getV x).toNat) := by
  simp only [exec, execSkp] at h
  by_cases a : (s.getV x).toNat < 16
  · rw [keyIndex_of_le a] at h
    cases h
    exact .inl ⟨⟨_, a⟩, rfl, rfl⟩
  · rw [keyIndex_of_gt (by omega), raise_eq] at h
    cases h
    exact .inr ⟨by omega, rfl⟩

theorem exec_sknp_cases {x : Reg} (h : exec (.sknp x) s = .next t) :
    (∃ k : Fin 16, (s.getV x).toNat = k.val ∧ t = s.advance.skipIf (!s.key.get k)) ∨
    (15 < (s.getV x).toNat ∧ t = faulted s .keyIndexOutOfRange (s.getV x).toNat) := by
  simp only [exec, execSknp] at h
  by_cases a : (s.getV x).toNat < 16
  · rw [keyIndex_of_le a] at h
    cases h
    exact .inl ⟨⟨_, a⟩, rfl, rfl⟩
  · rw [keyIndex_of_gt (by omega), raise_eq] at h
    cases h
    exact .inr ⟨by omega, rfl⟩

/-! ### WAITK -/

theorem exec_waitk_cases {x : Reg} (h : exec (.waitk x) s = .next t) :
    (∃ k, k < 16 ∧ leastPressed s.key = some k ∧ t = s.advance.setV x (BitVec.ofNat 8 k)) ∨
    (leastPressed s.key = none ∧ t = s) := by
  simp only [exec, execWaitk] at h
  cases e : leastPressed s.key with
  | none =>
    rw [e] at h
    cases h
    exact .inr ⟨rfl, s.advance_rewind⟩
  | some k =>
    rw [e] at h
    cases h
    exact .inl ⟨k, ((leastPressed_eq_some _ _).1 e).1, rfl, rfl⟩

end Sys2Proof.Machine
end

