-- ==== Sys2Proof/Laws/Memory.lean ====
section
/-! SUPPORT. The laws of memory: read after write, and that every operation keeps the canonical form. -/

namespace Sys2Proof.Machine

/-! ### Lists of cells -/

theorem lookupCell_filter_self (a : Nat) (cs : List Host.Cell) :
    lookupCell a (cs.filter fun c => c.1 != a) = none := by
  induction cs with
  | nil => rfl
  | cons c cs ih =>
    by_cases h : c.1 = a
    · simp [h, ih]
    · simp [h, lookupCell, ih]

theorem lookupCell_filter_ne {a b : Nat} (h : b ≠ a) (cs : List Host.Cell) :
    lookupCell b (cs.filter fun c => c.1 != a) = lookupCell b cs := by
  induction cs with
  | nil => rfl
  | cons c cs ih =>
    by_cases hc : c.1 = a
    · have : c.1 ≠ b := fun e => h (e.symm.trans hc)
      simp [hc, lookupCell, ih, Ne.symm h]
    · simp [hc, lookupCell, ih]

theorem lookupCell_insertCell (c : Host.Cell) (cs : List Host.Cell) (b : Nat)
    (fresh : lookupCell c.1 cs = none) :
    lookupCell b (insertCell c cs) = if b = c.1 then some c.2 else lookupCell b cs := by
  induction cs with
  | nil => simp [insertCell, lookupCell, eq_comm]
  | cons d ds ih =>
    have hd : d.1 ≠ c.1 := by
      intro e
      simp [lookupCell, e] at fresh
    have fresh' : lookupCell c.1 ds = none := by simpa [lookupCell, hd] using fresh
    by_cases hlt : c.1 < d.1
    · simp [insertCell, hlt, lookupCell, eq_comm]
    · simp only [insertCell, hlt, if_false, lookupCell, ih fresh']
      by_cases hb : d.1 = b
      · have : b ≠ c.1 := fun e => hd (hb.trans e)
        simp [hb, this]
      · simp [hb]

theorem mem_insertCell (c x : Host.Cell) (cs : List Host.Cell) : x ∈ insertCell c cs ↔ x = c ∨ x ∈ cs := by
  induction cs with
  | nil => simp [insertCell]
  | cons d ds ih =>
    by_cases h : c.1 < d.1
    · simp [insertCell, h]
    · simp only [insertCell, h, if_false, List.mem_cons, ih]
      tauto

theorem insertCell_sorted (c : Host.Cell) (cs : List Host.Cell) (sorted : cs.Pairwise fun c d => c.1 < d.1)
    (fresh : ∀ d ∈ cs, d.1 ≠ c.1) : (insertCell c cs).Pairwise fun c d => c.1 < d.1 := by
  induction cs with
  | nil => simp [insertCell]
  | cons d ds ih =>
    have hd := fresh d (by simp)
    rw [List.pairwise_cons] at sorted
    by_cases h : c.1 < d.1
    · simp only [insertCell, h, if_true, List.pairwise_cons, List.mem_cons]
      exact ⟨fun e he => he.elim (fun e' => e' ▸ h) fun he' => h.trans (sorted.1 e he'), sorted⟩
    · simp only [insertCell, h, if_false, List.pairwise_cons]
      refine ⟨fun e he => ?_, ih sorted.2 fun e he => fresh e (by simp [he])⟩
      rcases (mem_insertCell c e ds).1 he with rfl | he'
      · omega
      · exact sorted.1 e he'

/-! ### Read after write (20_memory.md R67) -/

/-- A byte reads as last written, and a write changes exactly that byte. No premise on the list. -/
theorem Memory.read_write (m : Memory) (a : Nat) (b : Byte) (c : Nat) :
    (m.write a b).read c = if c = a then b else m.read c := by
  by_cases hb : b = resetByte m.glyphs a
  · by_cases h : c = a
    · subst h
      simp [Memory.write, Memory.read, hb, lookupCell_filter_self]
    · simp [Memory.write, Memory.read, hb, h, lookupCell_filter_ne h]
  · have e : m.write a b = { m with cells := insertCell (a, b) (m.cells.filter fun c => c.1 != a) } := by
      simp [Memory.write, hb]
    rw [e, Memory.read, lookupCell_insertCell _ _ _ (lookupCell_filter_self a m.cells)]
    by_cases h : c = a
    · simp [h]
    · simp [h, Memory.read, lookupCell_filter_ne h]

/-- After reset the first 80 bytes are the glyph table. -/
theorem Memory.read_reset_glyph (glyphs : GlyphTable) (a : Nat) (h : a < Config.glyphBytes) :
    (Memory.reset glyphs).read a = glyphs[a] := by
  show glyphs[a]?.getD 0#8 = _
  rw [Vector.getElem?_eq_getElem h, Option.getD_some]

/-- After reset every other byte is 0. -/
theorem Memory.read_reset_zero (glyphs : GlyphTable) (a : Nat) (h : Config.glyphBytes ≤ a) :
    (Memory.reset glyphs).read a = 0#8 := by
  show glyphs[a]?.getD 0#8 = _
  rw [Vector.getElem?_eq_none h, Option.getD_none]

/-! ### The glyph table is a parameter: no write changes it -/

@[simp] theorem Memory.reset_glyphs (glyphs : GlyphTable) : (Memory.reset glyphs).glyphs = glyphs := rfl

@[simp] theorem Memory.write_glyphs (m : Memory) (a : Nat) (b : Byte) : (m.write a b).glyphs = m.glyphs := rfl

@[simp] theorem Memory.writeBytes_glyphs (bs : List Byte) (m : Memory) (a : Nat) :
    (m.writeBytes a bs).glyphs = m.glyphs := by
  induction bs generalizing m a with
  | nil => rfl
  | cons b bs ih => rw [Memory.writeBytes, ih, Memory.write_glyphs]

/-- Outside the bytes written, a byte reads as before. -/
theorem Memory.read_writeBytes_outside (bs : List Byte) (m : Memory) (a c : Nat)
    (h : c < a ∨ a + bs.length ≤ c) : (m.writeBytes a bs).read c = m.read c := by
  induction bs generalizing m a with
  | nil => rfl
  | cons b bs ih =>
    have hc : c ≠ a := by rintro rfl; simp at h
    rw [Memory.writeBytes, ih _ _ (by simp at h; omega), Memory.read_write, if_neg hc]

/-- The `k`-th byte written stands at the `k`-th address. -/
theorem Memory.read_writeBytes_inside (bs : List Byte) (m : Memory) (a k : Nat) (h : k < bs.length) :
    (m.writeBytes a bs).read (a + k) = bs[k] := by
  induction bs generalizing m a k with
  | nil => simp at h
  | cons b bs ih =>
    cases k with
    | zero =>
      rw [Memory.writeBytes, Memory.read_writeBytes_outside _ _ _ _ (by omega), Memory.read_write]
      simp
    | succ k =>
      have e : a + (k + 1) = a + 1 + k := by omega
      rw [Memory.writeBytes, e, ih _ _ _ (by simpa using h)]
      simp

/-! ### The canonical form -/

theorem Memory.reset_wf (glyphs : GlyphTable) : (Memory.reset glyphs).wf := ⟨.nil, fun _ h => nomatch h⟩

theorem Memory.write_wf (m : Memory) (a : Nat) (b : Byte) (ha : a < 4096) (h : m.wf) : (m.write a b).wf := by
  have sorted : (m.cells.filter fun c => c.1 != a).Pairwise fun c d => c.1 < d.1 := h.1.filter _
  have entries : ∀ c ∈ m.cells.filter fun c => c.1 != a, c.1 < Config.memSize ∧ c.2 ≠ resetByte m.glyphs c.1 :=
    fun c hc => h.2 c (List.mem_filter.1 hc).1
  by_cases hb : b = resetByte m.glyphs a
  · simpa [Memory.write, hb, Memory.wf] using And.intro sorted entries
  · have e : m.write a b = { m with cells := insertCell (a, b) (m.cells.filter fun c => c.1 != a) } := by
      simp [Memory.write, hb]
    rw [e]
    refine ⟨insertCell_sorted _ _ sorted fun d hd => by simpa using (List.mem_filter.1 hd).2, fun c hc => ?_⟩
    rcases (mem_insertCell _ _ _).1 hc with rfl | hc'
    · exact ⟨ha, hb⟩
    · exact entries c hc'

theorem Memory.writeBytes_wf (bs : List Byte) (m : Memory) (a : Nat) (ha : a + bs.length ≤ 4096) (h : m.wf) :
    (m.writeBytes a bs).wf := by
  induction bs generalizing m a with
  | nil => exact h
  | cons b bs ih =>
    simp only [List.length_cons] at ha
    exact ih _ _ (by omega) (Memory.write_wf m a b (by omega) h)

end Sys2Proof.Machine
end

