-- ==== Sys2Proof/Laws/PerInstr.lean ====
section
/-! SUPPORT. Statements about every instruction as syntax, one lemma per constructor. -/

namespace Sys2Proof.Laws.OperandsFit

/-- Every operand of the instruction fits its field of the word (30_encoding.md R92, R100). -/
def Statement (i : Instr) : Prop := i.wellFormed = true

theorem nop : Statement (.nop) := by
  simp [Statement, Instr.wellFormed, Instr.operands, operandsFit]

theorem cls : Statement (.cls) := by
  simp [Statement, Instr.wellFormed, Instr.operands, operandsFit]

theorem ret : Statement (.ret) := by
  simp [Statement, Instr.wellFormed, Instr.operands, operandsFit]

theorem jp (nnn : Addr) : Statement (.jp nnn) := by
  simp [Statement, Instr.wellFormed, Instr.operands, operandsFit, Slot.fits, Slot.width, nnn.isLt]

theorem call (nnn : Addr) : Statement (.call nnn) := by
  simp [Statement, Instr.wellFormed, Instr.operands, operandsFit, Slot.fits, Slot.width, nnn.isLt]

theorem sei (x : Reg) (nn : Byte) : Statement (.sei x nn) := by
  simp [Statement, Instr.wellFormed, Instr.operands, operandsFit, Slot.fits, Slot.width, x.isLt, nn.isLt]

theorem snei (x : Reg) (nn : Byte) : Statement (.snei x nn) := by
  simp [Statement, Instr.wellFormed, Instr.operands, operandsFit, Slot.fits, Slot.width, x.isLt, nn.isLt]

theorem ser (x y : Reg) : Statement (.ser x y) := by
  simp [Statement, Instr.wellFormed, Instr.operands, operandsFit, Slot.fits, Slot.width, x.isLt, y.isLt]

theorem ldi (x : Reg) (nn : Byte) : Statement (.ldi x nn) := by
  simp [Statement, Instr.wellFormed, Instr.operands, operandsFit, Slot.fits, Slot.width, x.isLt, nn.isLt]

theorem addi (x : Reg) (nn : Byte) : Statement (.addi x nn) := by
  simp [Statement, Instr.wellFormed, Instr.operands, operandsFit, Slot.fits, Slot.width, x.isLt, nn.isLt]

theorem mov (x y : Reg) : Statement (.mov x y) := by
  simp [Statement, Instr.wellFormed, Instr.operands, operandsFit, Slot.fits, Slot.width, x.isLt, y.isLt]

theorem or (x y : Reg) : Statement (.or x y) := by
  simp [Statement, Instr.wellFormed, Instr.operands, operandsFit, Slot.fits, Slot.width, x.isLt, y.isLt]

theorem and (x y : Reg) : Statement (.and x y) := by
  simp [Statement, Instr.wellFormed, Instr.operands, operandsFit, Slot.fits, Slot.width, x.isLt, y.isLt]

theorem xor (x y : Reg) : Statement (.xor x y) := by
  simp [Statement, Instr.wellFormed, Instr.operands, operandsFit, Slot.fits, Slot.width, x.isLt, y.isLt]

theorem add (x y : Reg) : Statement (.add x y) := by
  simp [Statement, Instr.wellFormed, Instr.operands, operandsFit, Slot.fits, Slot.width, x.isLt, y.isLt]

theorem sub (x y : Reg) : Statement (.sub x y) := by
  simp [Statement, Instr.wellFormed, Instr.operands, operandsFit, Slot.fits, Slot.width, x.isLt, y.isLt]

theorem shr (x : Reg) : Statement (.shr x) := by
  simp [Statement, Instr.wellFormed, Instr.operands, operandsFit, Slot.fits, Slot.width, x.isLt]

theorem subn (x y : Reg) : Statement (.subn x y) := by
  simp [Statement, Instr.wellFormed, Instr.operands, operandsFit, Slot.fits, Slot.width, x.isLt, y.isLt]

theorem shl (x : Reg) : Statement (.shl x) := by
  simp [Statement, Instr.wellFormed, Instr.operands, operandsFit, Slot.fits, Slot.width, x.isLt]

theorem sner (x y : Reg) : Statement (.sner x y) := by
  simp [Statement, Instr.wellFormed, Instr.operands, operandsFit, Slot.fits, Slot.width, x.isLt, y.isLt]

theorem ldidx (nnn : Addr) : Statement (.ldidx nnn) := by
  simp [Statement, Instr.wellFormed, Instr.operands, operandsFit, Slot.fits, Slot.width, nnn.isLt]

theorem jpv0 (nnn : Addr) : Statement (.jpv0 nnn) := by
  simp [Statement, Instr.wellFormed, Instr.operands, operandsFit, Slot.fits, Slot.width, nnn.isLt]

theorem rnd (x : Reg) (nn : Byte) : Statement (.rnd x nn) := by
  simp [Statement, Instr.wellFormed, Instr.operands, operandsFit, Slot.fits, Slot.width, x.isLt, nn.isLt]

theorem drw (x y : Reg) (n : Nibble) : Statement (.drw x y n) := by
  simp [Statement, Instr.wellFormed, Instr.operands, operandsFit, Slot.fits, Slot.width, x.isLt, y.isLt, n.isLt]

theorem skp (x : Reg) : Statement (.skp x) := by
  simp [Statement, Instr.wellFormed, Instr.operands, operandsFit, Slot.fits, Slot.width, x.isLt]

theorem sknp (x : Reg) : Statement (.sknp x) := by
  simp [Statement, Instr.wellFormed, Instr.operands, operandsFit, Slot.fits, Slot.width, x.isLt]

theorem getdt (x : Reg) : Statement (.getdt x) := by
  simp [Statement, Instr.wellFormed, Instr.operands, operandsFit, Slot.fits, Slot.width, x.isLt]

theorem waitk (x : Reg) : Statement (.waitk x) := by
  simp [Statement, Instr.wellFormed, Instr.operands, operandsFit, Slot.fits, Slot.width, x.isLt]

theorem setdt (x : Reg) : Statement (.setdt x) := by
  simp [Statement, Instr.wellFormed, Instr.operands, operandsFit, Slot.fits, Slot.width, x.isLt]

theorem setst (x : Reg) : Statement (.setst x) := by
  simp [Statement, Instr.wellFormed, Instr.operands, operandsFit, Slot.fits, Slot.width, x.isLt]

theorem addidx (x : Reg) : Statement (.addidx x) := by
  simp [Statement, Instr.wellFormed, Instr.operands, operandsFit, Slot.fits, Slot.width, x.isLt]

theorem glyph (x : Reg) : Statement (.glyph x) := by
  simp [Statement, Instr.wellFormed, Instr.operands, operandsFit, Slot.fits, Slot.width, x.isLt]

theorem bcd (x : Reg) : Statement (.bcd x) := by
  simp [Statement, Instr.wellFormed, Instr.operands, operandsFit, Slot.fits, Slot.width, x.isLt]

theorem store (x : Reg) : Statement (.store x) := by
  simp [Statement, Instr.wellFormed, Instr.operands, operandsFit, Slot.fits, Slot.width, x.isLt]

theorem load (x : Reg) : Statement (.load x) := by
  simp [Statement, Instr.wellFormed, Instr.operands, operandsFit, Slot.fits, Slot.width, x.isLt]

end Sys2Proof.Laws.OperandsFit
end

