-- ==== Sys2Proof/Machine/Assembler.lean ====
section
/-! DEFINITION. The assembler syntax of 30_encoding.md R100: lines of text to the bytes of a program image for `load`.
It is no part of the machine; nothing in the step uses it. -/

namespace Sys2Proof.Machine

/-- An operand as R100 writes it. -/
inductive AsmOperand where
  /-- `V0` to `VF` -/
  | reg (k : Nat)
  /-- a decimal or `0x` hexadecimal number -/
  | num (k : Nat)
  /-- a label's name -/
  | name (s : List Char)
  deriving DecidableEq, Repr

/-- A line: an instruction, `DB v`, or a label's definition. -/
inductive AsmLine where
  | instr (mnemonic : List Char) (operands : List AsmOperand)
  | data (v : Nat)
  | label (s : List Char)
  deriving DecidableEq, Repr

/-- The value of a hexadecimal digit: its place among the sixteen. R100 writes them in capitals (`VF`, `0xEA`); a number
may also have small ones (the model's choice, log entry 21). -/
def hexDigit (c : Char) : Option Nat := "0123456789ABCDEF".toList.idxOf? c.toUpper

/-- Digits in a base, the most significant first, onto the value read so far. -/
def digitsFrom (base acc : Nat) : List Char → Option Nat
  | [] => some acc
  | c :: cs =>
    match hexDigit c with
    | some d => if d < base then digitsFrom base (acc * base + d) cs else none
    | none => none

/-- R100: a number "in decimal or as `0x` hexadecimal". -/
def parseNumber : List Char → Option Nat
  | '0' :: 'x' :: c :: cs => digitsFrom 16 0 (c :: cs)
  | c :: cs => digitsFrom 10 0 (c :: cs)
  | [] => none

/-- R100: "a register operand is `V` followed by one hexadecimal digit (`V0` to `VF`)"; a number starts with a digit; any
other name is a label's. -/
def parseOperand (cs : List Char) : Option AsmOperand :=
  match cs with
  | [] => none
  | ['V', c] => if c.isLower then some (.name cs) else ((hexDigit c).map AsmOperand.reg).orElse fun _ => some (.name cs)
  | c :: _ => if c.isDigit then (parseNumber cs).map AsmOperand.num else some (.name cs)

/-- The text between separators. -/
def splitAt (sep : Char) : List Char → List (List Char)
  | [] => [[]]
  | c :: cs =>
    if c = sep then [] :: splitAt sep cs
    else
      match splitAt sep cs with
      | w :: ws => (c :: w) :: ws
      | [] => [[c]]

/-- Text without blanks at either end. -/
def trimBlanks (cs : List Char) : List Char := ((cs.dropWhile (· = ' ')).reverse.dropWhile (· = ' ')).reverse

/-- One line (R100): "the mnemonic in capitals, operands separated by commas"; `DB v`; "a label is a name followed by a
colon". What a name may be R100 does not say; DESIGN CHOICE, log entry 21: any text without a blank before the colon, also
an empty one, one that starts with a digit, one that holds a comma, or one of the shape of a register. `parseOperand`
reads none of those four as a label's name, so such a label is accepted and no operand can refer to it. Only the space is
a blank, and a label stands alone on its line (the same entry). -/
def parseLine (cs : List Char) : Option AsmLine :=
  let word := (trimBlanks cs).takeWhile (· ≠ ' ')
  let rest := trimBlanks ((trimBlanks cs).dropWhile (· ≠ ' '))
  if word.getLast? = some ':' then if rest = [] then some (.label word.dropLast) else none
  else if word = ['D', 'B'] then (parseNumber rest).map AsmLine.data
  else if rest = [] then some (.instr word [])
  else ((splitAt ',' rest).mapM fun o => parseOperand (trimBlanks o)).map (AsmLine.instr word)

/-- How many bytes a line gives. -/
def AsmLine.size : AsmLine → Nat
  | .instr _ _ => 2
  | .data _ => 1
  | .label _ => 0

/-- R100: a label "stands for the address of the next byte, assuming the program is loaded at 512"; `addr` is the address
of the first line's byte. Of a label defined twice the first definition counts and the text is not refused; a label
defined nowhere has no address, so its use is refused (DESIGN CHOICE, R100 says neither: log entry 21). -/
def labelAddress (name : List Char) (addr : Nat) : List AsmLine → Option Nat
  | [] => none
  | .label s :: ls => if s = name then some addr else labelAddress name addr ls
  | l :: ls => labelAddress name (addr + l.size) ls

/-- The number an operand gives its field: a register only where the field is `x` or `y`, a number or a label only where
it is not. -/
def operandValue (program : List AsmLine) (f : Slot) (o : AsmOperand) : Option Nat :=
  match o, decide (f = .x ∨ f = .y) with
  | .reg k, true => some k
  | .num k, false => some k
  | .name s, false => labelAddress s 512 program
  | _, _ => none

/-- The bytes of one line of a program, the high byte of a word first. -/
def AsmLine.bytes (program : List AsmLine) (l : AsmLine) : Option (List Byte) :=
  match l with
  | .label _ => some []
  | .data v => if v < 256 then some [BitVec.ofNat 8 v] else none
  | .instr mnemonic operands =>
    match opcodeTable.find? fun row => row.mnemonic.toList == mnemonic with
    | none => none
    | some row =>
      if operands.length = row.slots.length then
        match (row.slots.zip operands).mapM fun o => operandValue program o.1 o.2 with
        | some ks => (row.assemble ks).map fun w => [highByte w, lowByte w]
        | none => none
      else none

/-- The image of a program text, one line a list entry. -/
def assembleText (text : List String) : Option (List Byte) :=
  match text.mapM fun t => parseLine t.toList with
  | some program => (program.mapM (AsmLine.bytes program)).map List.flatten
  | none => none

end Sys2Proof.Machine
end

