-- ==== Sys2Proof/Tests/Slice0.lean ====
section
/-! SUPPORT. The model's own tests. Every expected value comes from the spec: 95_test_vectors.md (X1 to X7 are the source
document's own examples, T2.1 to T2.7 the spec's vectors), or a rule named at the test. The witnesses at the end show,
for each statement with hypotheses, concrete values that meet them together. -/

namespace Sys2Proof.Tests

open Sys2Proof Sys2Proof.Machine

/-! ### Small states -/

/-- The state an operation leaves, if it leaves one. -/
def after : Result → Option State
  | .next t => some t
  | _ => none

theorem eq_next_of_after {r : Result} {t : State} (h : after r = some t) : r = .next t := by
  cases r with
  | next s => simpa [after] using h
  | fault f => cases f
  | refused f => cases h

/-- The reset state with some registers set. -/
def regs (vs : List (Reg × Byte)) : State := vs.foldl (fun s p => s.setV p.1 p.2) State.reset

/-- `s` with bytes placed in memory. -/
def poke (s : State) (a : Nat) (bs : List Byte) : State := { s with mem := s.mem.writeBytes a bs }

/-- `s` with its lit cells toggled on, by column and row. -/
def light (s : State) (ps : List (Fin 64 × Fin 32)) : State :=
  { s with fb := ps.foldl (fun fb p => fb.toggle ⟨p.1, p.2⟩) s.fb }

/-- One tick of a word placed where `s` fetches. -/
def ran (s : State) (w : Nat) : Option State := after (step (s.withFetchWord 16 w))

/-- One register and the program counter. -/
def vpc (r : Reg) (t : State) : Nat × Nat := ((t.getV r).toNat, t.pc.toNat)

/-- One register and `VF`. -/
def vf (r : Reg) (t : State) : Nat × Nat := ((t.getV r).toNat, (t.getV VF).toNat)

/-- The fault latch as the vectors write it: cause code, info, addr. -/
def latch (t : State) : Option (Nat × Nat × Nat) := t.fault.map fun f => (f.cause.code, f.info, f.addr.toNat)

/-- The rows of the display as numbers, column `x` at bit `x`. -/
def rows (t : State) : List Nat := t.fb.toList.map BitVec.toNat

/-! ### WellFormed: an ill-formed operand for each check -/

theorem test_wellFormed_refuses_x : operandsFit [(.x, 16)] = false := by decide
theorem test_wellFormed_refuses_y : operandsFit [(.x, 15), (.y, 16)] = false := by decide
theorem test_wellFormed_refuses_n : operandsFit [(.x, 0), (.y, 0), (.n, 16)] = false := by decide
theorem test_wellFormed_refuses_nn : operandsFit [(.x, 0), (.nn, 256)] = false := by decide
theorem test_wellFormed_refuses_nnn : operandsFit [(.nnn, 4096)] = false := by decide
theorem test_wellFormed_accepts_largest :
    operandsFit [(.x, 15), (.y, 15), (.n, 15), (.nn, 255), (.nnn, 4095)] = true := by decide
/-- 30_encoding.md R100: operands "must fit their field", and each form has its own number of them. -/
theorem test_assembler_refuses :
    [assembleWord "LDI" [0, 256], assembleWord "LDI" [16, 0], assembleWord "JP" [4096], assembleWord "DRW" [0, 0, 16],
     assembleWord "SHR" [1, 2], assembleWord "CLS" [0], assembleWord "LD" [0, 0]] = List.replicate 7 none := by
  decide

/-! ### Decoding (T2.1), every constructor -/

theorem test_decode_group0 :
    [0x0000, 0x00E0, 0x00EE].map decode = [some .nop, some .cls, some .ret] := by decide
theorem test_decode_group0_illegal :
    [0x0001, 0x00E1, 0x00EF, 0x00FF, 0x0100, 0x0200, 0x0E00, 0x0FFF].map decode = List.replicate 8 none := by decide
theorem test_decode_nnn :
    [0x1000, 0x1FFF, 0x2ABC, 0xA000, 0xAFFF, 0xB123].map decode =
      [some (.jp 0x000), some (.jp 0xFFF), some (.call 0xABC), some (.ldidx 0), some (.ldidx 0xFFF),
       some (.jpv0 0x123)] := by decide
theorem test_decode_xnn :
    [0x3A7F, 0x4F00, 0x6C3D, 0x7001, 0xC5F0].map decode =
      [some (.sei 10 0x7F), some (.snei 15 0), some (.ldi 12 0x3D), some (.addi 0 1), some (.rnd 5 0xF0)] := by decide
theorem test_decode_skip_registers :
    [0x5AB0, 0x9AB0, 0x5001, 0x5AB8, 0x5FFF, 0x9AB1, 0x900F].map decode =
      [some (.ser 10 11), some (.sner 10 11), none, none, none, none, none] := by decide
theorem test_decode_group8 :
    [0x8120, 0x8121, 0x8122, 0x8123, 0x8124, 0x8125, 0x8126, 0x8127, 0x812E].map decode =
      [some (.mov 1 2), some (.or 1 2), some (.and 1 2), some (.xor 1 2), some (.add 1 2), some (.sub 1 2),
       some (.shr 1), some (.subn 1 2), some (.shl 1)] := by decide
theorem test_decode_group8_illegal :
    [0x8128, 0x8129, 0x812A, 0x812B, 0x812C, 0x812D, 0x812F].map decode = List.replicate 7 none := by decide
theorem test_decode_drw :
    [0xD000, 0xDABF].map decode = [some (.drw 0 0 0), some (.drw 10 11 15)] := by decide
theorem test_decode_groupE :
    [0xE59E, 0xE5A1, 0xE000, 0xE59F, 0xE5A0, 0xE5A2, 0xE5FF, 0xE09D].map decode =
      [some (.skp 5), some (.sknp 5), none, none, none, none, none, none] := by decide
theorem test_decode_groupF :
    [0xF207, 0xF20A, 0xF215, 0xF218, 0xF21E, 0xF229, 0xF233, 0xF255, 0xF265].map decode =
      [some (.getdt 2), some (.waitk 2), some (.setdt 2), some (.setst 2), some (.addidx 2), some (.glyph 2),
       some (.bcd 2), some (.store 2), some (.load 2)] := by decide
theorem test_decode_groupF_illegal :
    [0xF000, 0xF200, 0xF208, 0xF216, 0xF21F, 0xF22A, 0xF234, 0xF256, 0xF264, 0xF275, 0xF285, 0xF2FF].map decode =
      List.replicate 12 none := by decide
/-- 20_memory.md R62: the word 0x6A05 is stored as 6A, 05. -/
theorem test_decodeBytes_big_endian :
    decodeBytes [0x6A, 0x05, 0xFF] = .ok (.ldi 0xA 0x05, [0xFF]) ∧ encodeBytes (.ldi 0xA 0x05) = [0x6A, 0x05] := by decide
theorem test_decodeTableWord :
    decodeTableWord 16 0x6A05 = some (.ldi 0xA 0x05) ∧ decodeTableWord 16 0x5001 = none := by decide
theorem test_encode_shift_emits_zero_y : encode (.shr 1) = 0x8106 ∧ encode (.shl 1) = 0x810E := by decide

/-! ### Tick, fetch and control transfer (T2.2) -/

theorem test_nop : (ran State.reset 0x0000).map (fun t => { t with pc := 512 }) = some State.reset := by decide
theorem test_fetch_odd : (ran { State.reset with pc := 0x201 } 0x6011).map (vpc 0) = some (0x11, 0x203) := by decide
theorem test_fetch_last_word :
    (ran { State.reset with pc := 4094 } 0x6011).map (vpc 0) = some (0x11, 0x1000) := by decide
theorem test_fetch_4095_faults :
    (after (step { State.reset with pc := 4095 })).bind latch = some (2, 0x0FFF, 0x0FFF) := by decide
/-- X4, the document's Scenario D. -/
theorem test_illegal_word : (ran State.reset 0x5001).bind latch = some (1, 0x5001, 0x0200) := by decide
theorem test_halted_tick :
    after (step { State.reset with fault := some ⟨.illegalInstruction, 0x5001, 0x200⟩ }) =
      some { State.reset with fault := some ⟨.illegalInstruction, 0x5001, 0x200⟩ } := by decide
theorem test_ret :
    (ran { State.reset with sp := 16, stack := State.reset.stack.set 15 0x0ABC } 0x00EE).map
      (fun t => (t.pc.toNat, t.sp.val, t.stack[15].toNat)) = some (0x0ABC, 15, 0x0ABC) := by decide
theorem test_ret_empty : (ran State.reset 0x00EE).bind latch = some (4, 0x00EE, 0x0200) := by decide
/-- X3, the document's Scenario C. -/
theorem test_jp : (ran State.reset 0x1228).map (fun t => t.pc.toNat) = some 0x228 := by decide
theorem test_call :
    (ran { State.reset with sp := 15 } 0x2300).map (fun t => (t.pc.toNat, t.sp.val, t.stack[15].toNat)) =
      some (0x300, 16, 0x202) := by decide
theorem test_call_full :
    (ran { State.reset with sp := 16 } 0x2300).map (fun t => (latch t, t.pc.toNat, t.sp.val)) =
      some (some (3, 0x2300, 0x0200), 0x200, 16) := by decide
theorem test_jpv0 : (ran (regs [(0, 0x02), (2, 0x80)]) 0xB2FE).map (vpc 0) = some (2, 0x300) := by decide
theorem test_jpv0_beyond : (ran (regs [(0, 0xFF)]) 0xBFFF).map (vpc 0) = some (0xFF, 0x10FE) := by decide
theorem test_sei : (ran (regs [(3, 0x2A)]) 0x332A).map (vpc 3) = some (0x2A, 0x204) := by decide
theorem test_sei_not_taken : (ran (regs [(3, 0x2B)]) 0x332A).map (vpc 3) = some (0x2B, 0x202) := by decide
theorem test_snei : (ran (regs [(3, 0x2A)]) 0x432A).map (vpc 3) = some (0x2A, 0x202) := by decide
theorem test_snei_taken : (ran State.reset 0x432A).map (vpc 3) = some (0, 0x204) := by decide
theorem test_ser : (ran (regs [(1, 7), (2, 7)]) 0x5120).map (vpc 1) = some (7, 0x204) := by decide
theorem test_ser_not_taken : (ran (regs [(1, 7), (2, 8)]) 0x5120).map (vpc 1) = some (7, 0x202) := by decide
theorem test_sner : (ran (regs [(1, 7), (2, 8)]) 0x9120).map (vpc 1) = some (7, 0x204) := by decide
theorem test_sner_not_taken : (ran (regs [(1, 7), (2, 7)]) 0x9120).map (vpc 1) = some (7, 0x202) := by decide

/-! ### Register arithmetic and logic (T2.3) -/

theorem test_ldi : (ran State.reset 0x600A).map (vpc 0) = some (0x0A, 0x202) := by decide
theorem test_addi_no_flag : (ran (regs [(2, 0xFF)]) 0x7201).map (vf 2) = some (0, 0) := by decide
theorem test_addi_vf : (ran (regs [(15, 0xFF)]) 0x7F02).map (vf 15) = some (1, 1) := by decide
theorem test_mov : (ran (regs [(1, 0x37)]) 0x8010).map (vf 0) = some (0x37, 0) := by decide
theorem test_or : (ran (regs [(0, 0xF0), (1, 0x0F), (15, 1)]) 0x8011).map (vf 0) = some (0xFF, 1) := by decide
theorem test_and : (ran (regs [(0, 0xF0), (1, 0x3C), (15, 1)]) 0x8012).map (vf 0) = some (0x30, 1) := by decide
theorem test_xor : (ran (regs [(0, 0xF0), (1, 0x3C), (15, 1)]) 0x8013).map (vf 0) = some (0xCC, 1) := by decide
theorem test_add_carry : (ran (regs [(0, 0xFF), (1, 0xFF)]) 0x8014).map (vf 0) = some (0xFE, 1) := by decide
theorem test_add_into_vf : (ran (regs [(15, 0xFF), (1, 0x01)]) 0x8F14).map (vf 15) = some (1, 1) := by decide
theorem test_sub_borrow : (ran (regs [(0, 3), (1, 0x0A), (15, 1)]) 0x8015).map (vf 0) = some (0xF9, 0) := by decide
theorem test_sub_equal : (ran (regs [(0, 7), (1, 7)]) 0x8015).map (vf 0) = some (0, 1) := by decide
theorem test_subn : (ran (regs [(0, 3), (1, 0x0A)]) 0x8017).map (vf 0) = some (7, 1) := by decide
theorem test_subn_into_vf : (ran (regs [(15, 9), (1, 5)]) 0x8F17).map (vf 15) = some (0, 0) := by decide
theorem test_shr_ignores_y :
    (ran (regs [(0, 0x81), (1, 0x02)]) 0x8016).map (fun t => (vf 0 t, (t.getV 1).toNat)) = some ((0x40, 1), 2) := by
  decide
theorem test_shr_vf : (ran (regs [(15, 0x03)]) 0x8F06).map (vf 15) = some (0, 0) := by decide
theorem test_shl : (ran (regs [(0, 0x81)]) 0x800E).map (vf 0) = some (2, 1) := by decide
theorem test_shl_vf : (ran (regs [(15, 0x81)]) 0x8F0E).map (vf 15) = some (2, 2) := by decide
/-- The byte drawn is free: only what the spec fixes is tested (T2.3 row 52). -/
theorem test_rnd_draws_one : (ran State.reset 0xC000).map (fun t => (t.draws, t.pc.toNat)) = some (1, 0x202) := rfl
theorem test_rnd_mask_zero : (ran (regs [(0, 0x55)]) 0xC000).map (fun t => t.getV 0) = some 0 := by
  show some (Config.randomByte 0 &&& 0#8) = some 0
  simp

/-! ### Index register and memory (T2.4) -/

theorem test_ldidx : (ran State.reset 0xAFFF).map (fun t => t.i.toNat) = some 0x0FFF := by decide
theorem test_addidx_wraps :
    (ran { regs [(0, 0xFF)] with i := 0xFF80 } 0xF01E).map (fun t => (t.i.toNat, (t.getV VF).toNat)) = some (0x7F, 0) := by
  decide
theorem test_glyph : (ran (regs [(0, 0x0F)]) 0xF029).map (fun t => t.i.toNat) = some 75 := by decide
theorem test_glyph_beyond : (ran (regs [(0, 0xFF)]) 0xF029).map (fun t => t.i.toNat) = some 1275 := by decide
/-- X6: the document's 234. -/
theorem test_bcd :
    (ran { regs [(0, 234)] with i := 0x300 } 0xF033).map (fun t => (t.mem.readBytes 0x300 3, t.i.toNat)) =
      some ([2, 3, 4], 0x300) := by decide
theorem test_bcd_beyond :
    (ran { regs [(0, 1)] with i := 0xFFFF } 0xF033).bind latch = some (5, 0x10001, 0x200) := by decide
theorem test_store :
    (ran { regs [(0, 0x11), (1, 0x22), (2, 0x33), (3, 0x44)] with i := 0x300 } 0xF255).map
      (fun t => (t.mem.readBytes 0x300 4, t.i.toNat)) = some ([0x11, 0x22, 0x33, 0], 0x300) := by decide
theorem test_store_beyond_writes_nothing :
    (ran { regs [(0, 0xA0)] with i := 4081 } 0xFF55).map (fun t => (latch t, (t.mem.read 4081).toNat)) =
      some (some (5, 0x1000, 0x200), 0) := by decide
theorem test_load :
    (ran (poke { regs [(3, 0x99)] with i := 0x300 } 0x300 [1, 2, 3, 4]) 0xF265).map
      (fun t => (t.v.toList.take 4, t.i.toNat)) = some ([1, 2, 3, 0x99], 0x300) := by decide
theorem test_load_beyond :
    (ran (poke { State.reset with i := 4095 } 4095 [0x77]) 0xF165).map (fun t => (latch t, (t.getV 0).toNat)) =
      some (some (5, 0x1000, 0x200), 0) := by decide
/-- The canonical form: writing an address its reset contents removes its entry. -/
theorem test_memory_canonical :
    let m := State.reset.mem
    (m.write 0x300 7).write 0x300 0 = m ∧ m.write 0 0xF0 = m ∧
      m.writeBytes 0x2FF [1, 2] = (m.write 0x300 2).write 0x2FF 1 := by decide
/-- R31's table: glyph F of the default. -/
theorem test_default_glyph_table : State.reset.mem.readBytes 75 6 = [0xF0, 0x80, 0xF0, 0x80, 0x80, 0] := by decide

/-! ### Display (T2.5) -/

theorem test_cls :
    (ran (light State.reset [(0, 0), (5, 5), (63, 31)]) 0x00E0).map rows = some (List.replicate 32 0) := by decide
/-- T2.5 row 3 (R212's example), for the default glyph table (log entry 1): columns 0 to 3, then 0 and 3. -/
theorem test_drw_glyph_zero :
    (ran State.reset 0xD015).map (fun t => (rows t, (t.getV VF).toNat)) =
      some ([0xF, 0x9, 0x9, 0x9, 0xF] ++ List.replicate 27 0, 0) := by decide
/-- T2.5 row 6, with cell (0,31) lit before: it goes out, the other seven come on, and `VF` says so. -/
theorem test_drw_wraps_and_collides :
    (ran (light (poke { regs [(0, 62), (1, 31)] with i := 0x300 } 0x300 [0xFF]) [(0, 31)]) 0xD011).map
      (fun t => (rows t, (t.getV VF).toNat)) =
      some (List.replicate 31 0 ++ [2 ^ 62 + 2 ^ 63 + 2 + 4 + 8 + 16 + 32], 1) := by decide

/-! ### Keypad and timers (T2.6) -/

theorem test_skp : (ran (keyEvent 5 true (regs [(0, 5)])) 0xE09E).map (vpc 0) = some (5, 0x204) := by decide
theorem test_skp_beyond : (ran (regs [(0, 16)]) 0xE09E).bind latch = some (6, 0x10, 0x200) := by decide
theorem test_sknp : (ran (keyEvent 5 true (regs [(0, 5)])) 0xE0A1).map (vpc 0) = some (5, 0x202) := by decide
theorem test_sknp_beyond : (ran (regs [(0, 0xFF)]) 0xE0A1).bind latch = some (6, 0xFF, 0x200) := by decide
/-- X5, the document's Scenario E. -/
theorem test_waitk_polls : (ran State.reset 0xF00A).map (vpc 0) = some (0, 0x200) := by decide
theorem test_waitk_least :
    (ran (keyEvent 15 true (keyEvent 9 true (keyEvent 4 true (regs [(3, 0x77)])))) 0xF30A).map (vpc 3) =
      some (4, 0x202) := by decide
theorem test_getdt : (ran { State.reset with dt := 0x2A } 0xFF07).map (vpc 15) = some (0x2A, 0x202) := by decide
theorem test_setdt : (ran (regs [(0, 0x3C)]) 0xF015).map (fun t => (t.dt.toNat, t.st.toNat)) = some (60, 0) := by
  decide
theorem test_setst : (ran (regs [(0, 0x3C)]) 0xF018).map (fun t => (t.dt.toNat, t.st.toNat)) = some (0, 60) := by
  decide

/-! ### Host operations (T2.7) and the assembler -/

theorem test_tickTimers :
    (tickTimers { State.reset with dt := 1, st := 0 }) = State.reset ∧
      (tickTimers { State.reset with dt := 255, st := 2 }) = { State.reset with dt := 254, st := 1 } := by decide
theorem test_load_keeps_tail :
    (runOperations [.load [0x12, 0x34, 0x56], .load [0xAB]] State.reset).mem.readBytes 0x200 3 = [0xAB, 0x34, 0x56] := by
  decide
/-- T2.7 row 13. -/
theorem test_halted_host :
    let s := runOperations [.tickTimers, .keyEvent 1 true, .tick]
      { State.reset with dt := 3, fault := some ⟨.stackUnderflow, 0x00EE, 0x202⟩ }
    (s.dt.toNat, s.key[1], latch s) = (2, true, some (4, 0x00EE, 0x202)) := by decide
/-- The text of program P2 and its bytes. -/
theorem test_assembleText_P2 :
    assembleText ["LDI V0, 0x00", "LDI V1, 0x05", "loop:", "ADD V0, V1", "ADDI V1, 0xFF", "SEI V1, 0", "JP loop",
      "end:", "JP end"] =
    some [0x60, 0x00, 0x61, 0x05, 0x80, 0x14, 0x71, 0xFF, 0x31, 0x00, 0x12, 0x04, 0x12, 0x0C] := by decide
/-- The model's own choices (log entry 21): the first of two definitions counts, and an undefined label is refused. -/
theorem test_assembleText_labels :
    assembleText ["a:", "DB 0x7f", "a:", "JP a"] = some [0x7F, 0x12, 0x00] ∧ assembleText ["JP b"] = none := by decide

/-! ### Witnesses: values that meet a statement's hypotheses together, at the ends of their ranges -/

/-- A state that a run could leave: a CALL pending, a key down, a timer running, a byte stored. -/
def busy : State :=
  { poke (keyEvent 4 true (regs [(0, 15), (1, 0x34), (14, 16)])) 0x300 [7] with
    sp := 1, stack := State.reset.stack.set 0 0x0204, dt := 9, i := 4093 }

theorem busy_inv : Inv busy := by
  refine ⟨by decide, by decide, ?_, fun f h => by cases h⟩
  decide

theorem witness_StepRunsDecodedInstruction :
    let s := poke { State.reset with pc := 4094 } 4094 [0x00, 0xE0]
    s.running ∧ s.fetchable ∧ decode (composeWord (s.mem.read s.pc.toNat) (s.mem.read (s.pc.toNat + 1))) = some .cls := by
  decide
theorem witness_FetchAndDispatchFaults_fetch :
    let s := { State.reset with pc := 4095 }
    s.running ∧ 4094 < s.pc.toNat := by decide
theorem witness_FetchAndDispatchFaults_dispatch :
    let s := poke { State.reset with pc := 4094 } 4094 [0x50, 0x01]
    s.running ∧ s.fetchable ∧ decode s.fetchWord = none := by decide
theorem witness_HaltedTickChangesNothing : ¬ (faulted State.reset .stackUnderflow 0x00EE).running := by decide
theorem witness_FaultsArePrecise : ∃ (s t : State) (f : FaultRecord),
    s.running ∧ step s = .next t ∧ t.fault = some f :=
  ⟨{ State.reset with pc := 4095 }, _, _, rfl, rfl, rfl⟩

theorem witness_FaultsByForm_stackOverflow : ∃ (nnn : Addr) (s t : State) (f : FaultRecord),
    s.running ∧ exec (.call nnn) s = .next t ∧ t.fault = some f ∧ f.cause = .stackOverflow :=
  ⟨0xFFF, { State.reset with sp := 16 }, _, _, rfl, rfl, rfl, rfl⟩
theorem witness_FaultsByForm_stackUnderflow : ∃ (s t : State) (f : FaultRecord),
    s.running ∧ exec .ret s = .next t ∧ t.fault = some f ∧ f.cause = .stackUnderflow :=
  ⟨State.reset, _, _, rfl, rfl, rfl, rfl⟩
theorem witness_FaultsByForm_memoryOutOfBounds : ∃ (x : Reg) (s t : State) (f : FaultRecord),
    s.running ∧ exec (.store x) s = .next t ∧ t.fault = some f ∧ f.cause = .memoryOutOfBounds :=
  ⟨15, { State.reset with i := 4081 }, _, _, rfl, rfl, rfl, rfl⟩
theorem witness_FaultsByForm_keyIndexOutOfRange : ∃ (x : Reg) (s t : State) (f : FaultRecord),
    s.running ∧ exec (.skp x) s = .next t ∧ t.fault = some f ∧ f.cause = .keyIndexOutOfRange :=
  ⟨0, regs [(0, 16)], _, _, rfl, rfl, rfl, rfl⟩
theorem witness_OnlyResetClearsTheLatch : ∃ (op : Operation) (s : State) (f : FaultRecord),
    s.fault = some f ∧ op ≠ .reset :=
  ⟨.load [1], faulted State.reset .illegalInstruction 1, _, rfl, by decide⟩

theorem witness_StepKeepsInvariant : ∃ s t, Inv s ∧ step s = .next t ∧ t.pc ≠ s.pc := ⟨busy, _, busy_inv, rfl, by decide⟩
theorem witness_OperationsKeepInvariant_reachable : ∃ s, Reachable s ∧ s.fault ≠ none ∧ s.dt = 1 :=
  ⟨runOperations [.load [0x61, 0x02, 0xF1, 0x15, 0x00, 0xEE], .tick, .tick, .tick, .tickTimers] State.reset,
    ⟨defaultGlyphTable, _, rfl⟩, by decide⟩

theorem witness_OperationsKeepInvariant_operation : ∃ (op : Operation) (s : State), Inv s ∧ op.after s ≠ s :=
  ⟨.tickTimers, busy, busy_inv, by decide⟩

theorem witness_OnlyTheseFormsWrite_memory : ∃ s t, exec (.bcd 0) s = .next t ∧ ¬ SameMemory s t :=
  ⟨busy, _, rfl, fun h => absurd (h 4095) (by decide)⟩
theorem witness_OnlyTheseFormsWrite_display : ∃ s t, exec .cls s = .next t ∧ ¬ SameDisplay s t :=
  ⟨light State.reset [(63, 31)], _, rfl, fun h => absurd (h ⟨63, 31⟩) (by decide)⟩
theorem witness_OnlyTheseFormsWrite_stack : ∃ s t u, exec .ret s = .next t ∧ t.sp ≠ s.sp ∧
    exec (.call 0x300) s = .next u ∧ ∃ k : Fin 16, u.stack.get k ≠ s.stack.get k :=
  ⟨busy, _, _, rfl, by decide, rfl, 1, by decide⟩
theorem witness_OnlyTheseFormsWrite_pc : ∃ s t u, exec (.waitk 0) s = .next t ∧ t.pc ≠ s.pc + 2 ∧
    exec .ret s = .next u ∧ u.pc ≠ s.pc + 2 ∧ u.fault ≠ s.fault :=
  ⟨State.reset, _, _, rfl, by decide, rfl, by decide, by decide⟩
theorem witness_OnlyTheseFormsWrite_index : ∃ s t, exec (.glyph 0) s = .next t ∧ t.i ≠ s.i := ⟨busy, _, rfl, by decide⟩
theorem witness_OnlyTheseFormsWrite_timers : ∃ s t u,
    exec (.setdt 0) s = .next t ∧ t.dt ≠ s.dt ∧ exec (.setst 0) s = .next u ∧ u.st ≠ s.st :=
  ⟨busy, _, _, rfl, by decide, rfl, by decide⟩
theorem witness_OnlyTheseFormsWrite_draws : ∃ s t, exec (.rnd 0 0xFF) s = .next t ∧ t.draws ≠ s.draws :=
  ⟨busy, _, rfl, Nat.succ_ne_self _⟩
theorem witness_OnlyTheseFormsWrite_registers : ∃ s t u,
    exec (.ldi 14 1) s = .next t ∧ t.getV 14 ≠ s.getV 14 ∧ exec (.load 2) s = .next u ∧ u.getV 0 ≠ s.getV 0 :=
  ⟨busy, _, _, rfl, by decide, rfl, by decide⟩
theorem witness_FlagWriters : ∃ s t u,
    exec (.sub 0 1) s = .next t ∧ t.getV VF ≠ s.getV VF ∧ exec (.ldi 15 9) s = .next u ∧ u.getV VF ≠ s.getV VF :=
  ⟨regs [(0, 5), (1, 5)], _, _, rfl, by decide, rfl, by decide⟩
theorem witness_AllButRndIgnoreTheCountOfDraws : ∃ s t, (∀ x nn, Instr.call 0x300 ≠ .rnd x nn) ∧
    exec (.call 0x300) s = .next t := ⟨busy, _, fun _ _ h => (nomatch h), rfl⟩

/-- P1's and R287's jump to itself. -/
theorem witness_JpJumps_self : (0x200 : Addr).toNat = State.reset.pc.toNat := by decide
theorem witness_RegisterSkips : (1 : Nibble) ≠ 0 ∧ (15 : Nibble) ≠ 0 := by decide
theorem witness_CallPushesReturnAddress :
    State.reset.sp.val < 16 ∧ ({ State.reset with sp := 15 } : State).sp.val < 16 := by decide
theorem witness_RetPopsReturnAddress :
    busy.sp.val = (0 : Fin 16).val + 1 ∧ ({ State.reset with sp := 16 } : State).sp.val = (15 : Fin 16).val + 1 := by decide
theorem witness_StackFaults : ({ State.reset with sp := 16 } : State).sp.val = 16 ∧ State.reset.sp.val = 0 := by decide
theorem witness_RetUndoesCall : ∃ s t u w : State, s.sp.val < 16 ∧ exec (.call 0x300) s = .next t ∧
    u.stack = t.stack ∧ u.sp = t.sp ∧ u.pc ≠ t.pc ∧ exec .ret u = .next w :=
  ⟨{ State.reset with sp := 15 }, _, { State.reset with sp := 16, stack := State.reset.stack.set 15 0x202 }, _,
    by decide, rfl, by decide, by decide, by decide, rfl⟩
/-- For the flag-writing forms: both cases of the destination. -/
theorem witness_flag_destinations : (0 : Reg) ≠ VF ∧ (15 : Reg) = VF := by decide

theorem witness_BcdStoresDigits : busy.indexAddr 2 ≤ 4095 ∧ busy.indexAddr 2 = 4095 := by decide
theorem witness_StoreCopiesRegisters :
    ({ State.reset with i := 4080 } : State).indexAddr (15 : Reg).toNat = 4095 ∧
      ({ State.reset with i := 4095 } : State).indexAddr (0 : Reg).toNat ≤ 4095 := by decide
theorem witness_LoadCopiesMemory :
    busy.indexAddr (2 : Reg).toNat ≤ 4095 ∧ (1 : Reg).toNat ≤ (2 : Reg).toNat ∧ (2 : Reg).toNat < (3 : Reg).toNat := by decide
theorem witness_AccessBeyondMemoryFaults :
    let s := { State.reset with i := 4094 }
    4095 < s.i.toNat + 2 ∧ 4095 < s.i.toNat + (2 : Reg).toNat ∧ 0 < (3 : Nibble).toNat ∧
      4095 < s.i.toNat + (3 : Nibble).toNat - 1 := by decide
theorem witness_LoadUndoesStore : ∃ s t u w : State, s.indexAddr (2 : Reg).toNat ≤ 4095 ∧ exec (.store 2) s = .next t ∧
    u.mem = t.mem ∧ u.i = s.i ∧ u.v ≠ s.v ∧ exec (.load 2) u = .next w :=
  ⟨busy, _, poke { State.reset with i := 4093 } 0x300 [7, 0] |>.storeAtIndex [15, 0x34, 0], _,
    by decide, rfl, by decide, by decide, by decide, rfl⟩
theorem witness_FetchSeesStores : ∃ s t : State, 1 ≤ (1 : Reg).toNat ∧ s.i = s.pc + 2 ∧
    s.indexAddr (1 : Reg).toNat ≤ 4095 ∧ exec (.store 1) s = .next t :=
  ⟨{ State.reset with pc := 4092, i := 4094 }, _, by decide, by decide, by decide, rfl⟩

theorem witness_DrwXorsSprite :
    ((0 : Nibble).toNat = 0) ∧ ({ State.reset with i := 4081 } : State).indexAddr ((15 : Nibble).toNat - 1) = 4095 := by
  decide
/-- A set bit over a lit cell. -/
theorem witness_DrwXorsSprite_collision : ∃ p, UnderSprite State.reset 0 1 1 p ∧
    (light State.reset [(3, 0)]).fb.lit p = true := ⟨⟨3, 0⟩, ⟨0, 3, by decide⟩, by decide⟩
/-- No lit cell anywhere. -/
theorem witness_DrwXorsSprite_no_collision :
    ∀ p, UnderSprite { State.reset with i := 4095 } 0 1 1 p → ({ State.reset with i := 4095 } : State).fb.lit p = false :=
  fun p _ => FrameBuffer.lit_clear p
theorem witness_DrwTwiceRestoresDisplay : ∃ s t u : State, (0 : Reg) ≠ VF ∧ (1 : Reg) ≠ VF ∧
    s.indexAddr ((5 : Nibble).toNat - 1) ≤ 4095 ∧ exec (.drw 0 1 5) s = .next t ∧ exec (.drw 0 1 5) t = .next u ∧
    (∀ p, UnderSprite s 0 1 5 p → s.fb.lit p = false) ∧ ∃ p, UnderSprite s 0 1 5 p :=
  ⟨State.reset, _, _, by decide, by decide, by decide, rfl, rfl, fun p _ => FrameBuffer.lit_clear p,
    ⟨⟨0, 0⟩, ⟨0, 0, by decide⟩⟩⟩

theorem witness_KeySkips : (busy.getV 0).toNat = (15 : Fin 16).val ∧ 15 < (busy.getV 14).toNat := by decide
theorem witness_WaitkPollsForTheLeastKey_none : ∀ k, State.reset.key.get k = false := by decide
theorem witness_WaitkPollsForTheLeastKey_some :
    (keyEvent 9 true busy).key.get 4 = true ∧ (keyEvent 9 true busy).key.get 9 = true ∧
      ∀ j, j < 4 → (keyEvent 9 true busy).key.get j = false := by decide
theorem witness_TickTimersCountDown : ∃ s t, exec (.setst 0) s = .next t ∧ ∀ x, Instr.setst 0 ≠ .setdt x :=
  ⟨busy, _, rfl, fun _ h => by cases h⟩
theorem witness_LoadCopiesImage :
    (List.replicate 3584 (1 : Byte)).length ≤ 3584 ∧ 3583 < (List.replicate 3584 (1 : Byte)).length ∧
      3584 < (List.replicate 3585 (1 : Byte)).length := by
  rw [List.length_replicate, List.length_replicate]
  decide
theorem witness_ResetRestoresEverything : 79 < 80 ∧ 80 ≤ 80 := by decide
theorem witness_BootRunsTheImage :
    (List.replicate 3582 (0 : Byte)).length ≤ 3582 ∧ decode (composeWord 0x60 0x0A) = some (.ldi 0 0x0A) := by
  rw [List.length_replicate]
  decide
theorem witness_QueriesShowTheState : (⟨63, 31⟩ : Pixel).col.val + 64 * (⟨63, 31⟩ : Pixel).row.val = 2047 := by decide

end Sys2Proof.Tests
end

section
/-! SUPPORT. The encoding family (30_encoding.md): the fields of a word as numbers, and the decoder against the opcode map.
Both sides of R93 name a row: `rowOf` finds the row of R94 that a word matches, group by group as the decoder branches,
and the decoder's form has that row's mnemonic. -/

namespace Sys2Proof

/-! ### The fields of a word as numbers (30_encoding.md R92) -/

@[simp] theorem fieldX_toNat (w : Word) : (fieldX w).toNat = w.toNat / 256 % 16 := by
  simp [fieldX, Nat.shiftRight_eq_div_pow]

@[simp] theorem fieldY_toNat (w : Word) : (fieldY w).toNat = w.toNat / 16 % 16 := by
  simp [fieldY, Nat.shiftRight_eq_div_pow]

@[simp] theorem fieldN_toNat (w : Word) : (fieldN w).toNat = w.toNat % 16 := by simp [fieldN]

@[simp] theorem fieldNN_toNat (w : Word) : (fieldNN w).toNat = w.toNat % 256 := by simp [fieldNN]

@[simp] theorem fieldNNN_toNat (w : Word) : (fieldNNN w).toNat = w.toNat % 4096 := by simp [fieldNNN]

/-- Settles O4: each field is a quotient and a remainder of the word, and the two longer fields put the shorter ones
side by side. -/
theorem operandsReadStraight : Obligations.OperandsReadStraight := by
  intro w
  have hnn : (fieldNN w).toNat = (fieldY w).toNat * 16 + (fieldN w).toNat := by
    simp only [fieldNN_toNat, fieldY_toNat, fieldN_toNat]
    omega
  have hnnn : (fieldNNN w).toNat = (fieldX w).toNat * 256 + (fieldY w).toNat * 16 + (fieldN w).toNat := by
    simp only [fieldNNN_toNat, fieldX_toNat, fieldY_toNat, fieldN_toNat]
    omega
  exact ⟨fieldX_toNat w, fieldY_toNat w, fieldN_toNat w, hnn, hnnn, Machine.zextAddr_toNat (fieldNNN w)⟩

/-! ### Rows of the opcode map (R93, R94) -/

theorem OpcodeRow.matches_iff (row : OpcodeRow) (w : Word) :
    row.matches w = true ↔ w &&& row.mask = row.pattern := by
  simp [OpcodeRow.matches]

/-- No word belongs to both rows. -/
def OpcodeRow.Apart (row other : OpcodeRow) : Prop := ∀ w, ¬ (row.matches w = true ∧ other.matches w = true)

theorem OpcodeRow.Apart.symm {row other : OpcodeRow} (h : row.Apart other) : other.Apart row :=
  fun w hw => h w hw.symm

/-- Two rows whose patterns differ in a bit that both masks read are apart. -/
theorem OpcodeRow.apart_of_patterns {row other : OpcodeRow}
    (h : row.pattern &&& other.mask ≠ other.pattern &&& row.mask) : row.Apart other := by
  intro w hw
  rw [row.matches_iff, other.matches_iff] at hw
  obtain ⟨hr, ho⟩ := hw
  apply h
  rw [← hr, ← ho, BitVec.and_assoc, BitVec.and_assoc, BitVec.and_comm row.mask]

theorem opcodeTable_apart : opcodeTable.Pairwise OpcodeRow.Apart := by
  have patterns : opcodeTable.Pairwise fun row other => row.pattern &&& other.mask ≠ other.pattern &&& row.mask := by
    decide
  exact patterns.imp OpcodeRow.apart_of_patterns

theorem OpcodeRow.eq_of_matches {row other : OpcodeRow} {w : Word} (hrow : row ∈ opcodeTable)
    (hother : other ∈ opcodeTable) (hr : row.matches w = true) (ho : other.matches w = true) : row = other := by
  by_contra hne
  have symmetric : Std.Symm OpcodeRow.Apart := ⟨fun _ _ => OpcodeRow.Apart.symm⟩
  exact opcodeTable_apart.forall hrow hother hne w ⟨hr, ho⟩

theorem OpcodeRow.eq_of_mnemonic {row other : OpcodeRow} (hrow : row ∈ opcodeTable) (hother : other ∈ opcodeTable)
    (h : row.mnemonic = other.mnemonic) : row = other :=
  List.inj_on_of_nodup_map (show (opcodeTable.map OpcodeRow.mnemonic).Nodup by decide) hrow hother h

/-- The first row, in the order of R94, that a word matches. -/
def rowOf (w : Word) : Option OpcodeRow := opcodeTable.find? fun row => row.matches w

theorem matches_of_rowOf {w : Word} {row : OpcodeRow} (h : rowOf w = some row) : row.matches w = true :=
  List.find?_some (p := fun other : OpcodeRow => other.matches w) h

theorem rowOf_eq_some_iff {w : Word} {row : OpcodeRow} :
    rowOf w = some row ↔ row ∈ opcodeTable ∧ row.matches w = true := by
  constructor
  · exact fun h => ⟨List.mem_of_find?_eq_some h, matches_of_rowOf h⟩
  · rintro ⟨hrow, hm⟩
    cases hfound : rowOf w with
    | none => exact absurd hm (List.find?_eq_none.mp hfound row hrow)
    | some other =>
      exact congrArg some (OpcodeRow.eq_of_matches (List.mem_of_find?_eq_some hfound) hrow (matches_of_rowOf hfound) hm)

theorem rowOf_eq_none_iff {w : Word} : rowOf w = none ↔ ∀ row ∈ opcodeTable, row.matches w = false := by
  simp [rowOf]

/-! ### The rows of one opcode group (R91) -/

/-- The rows whose pattern has `d1 = g`. -/
def groupRows (g : Nibble) : List OpcodeRow := opcodeTable.filter fun row => fieldD1 row.pattern = g

/-- Every mask reads the four bits of `d1`. -/
theorem fieldD1_eq_of_matches {row : OpcodeRow} {w : Word} (hrow : row ∈ opcodeTable) (h : row.matches w = true) :
    fieldD1 row.pattern = fieldD1 w := by
  have reads : ∀ row ∈ opcodeTable, row.mask &&& 0xF000#16 = 0xF000#16 := by decide
  have hd1 : row.pattern &&& 0xF000#16 = w &&& 0xF000#16 := by
    rw [← (row.matches_iff w).mp h, BitVec.and_assoc, reads row hrow]
  have hw := (mask_d1 w (fieldD1 w)).mpr rfl
  exact (mask_d1 row.pattern (fieldD1 w)).mp (hd1.trans hw)

/-- Only the rows of the word's own group can match it. -/
theorem rowOf_eq_find?_groupRows {w : Word} {g : Nibble} {test : OpcodeRow → Bool} (hg : fieldD1 w = g)
    (htest : ∀ row ∈ groupRows g, row.matches w = test row) : rowOf w = (groupRows g).find? test := by
  rw [← List.find?_congr htest, groupRows, List.find?_filter, rowOf]
  apply List.find?_congr
  intro row hrow
  cases hm : row.matches w with
  | false => simp
  | true => simp [fieldD1_eq_of_matches hrow hm, hg]

/-- Formats NNN, XNN and XYN: the mask reads `d1` alone, so every row of the group matches. -/
theorem rowOf_by_d1 {w : Word} {g : Nibble} (hg : fieldD1 w = g)
    (hrows : ∀ row ∈ groupRows g, row.mask = 0xF000#16 ∧ row.pattern = g ++ 0#12) :
    rowOf w = (groupRows g).find? fun _ => true := by
  apply rowOf_eq_find?_groupRows hg
  intro row hrow
  obtain ⟨hmask, hpattern⟩ := hrows row hrow
  rw [row.matches_iff, hmask, hpattern, mask_d1, hg]

/-- Format XY: the mask reads the low nibble. -/
theorem rowOf_by_n {w : Word} {g : Nibble} (hg : fieldD1 w = g)
    (hrows : ∀ row ∈ groupRows g, row.mask = 0xF00F#16 ∧ row.pattern = g ++ 0#8 ++ fieldN row.pattern) :
    rowOf w = (groupRows g).find? fun row => fieldN w == fieldN row.pattern := by
  apply rowOf_eq_find?_groupRows hg
  intro row hrow
  obtain ⟨hmask, hpattern⟩ := hrows row hrow
  have hiff : row.matches w = true ↔ fieldN w = fieldN row.pattern :=
    calc row.matches w = true ↔ w &&& 0xF00F#16 = g ++ 0#8 ++ fieldN row.pattern := by
          rw [row.matches_iff, hmask, ← hpattern]
      _ ↔ fieldN w = fieldN row.pattern := (mask_d1_n w g _).trans (and_iff_right hg)
  rw [Bool.eq_iff_iff, hiff, beq_iff_eq]

/-- Format X: the mask reads the low byte. -/
theorem rowOf_by_nn {w : Word} {g : Nibble} (hg : fieldD1 w = g)
    (hrows : ∀ row ∈ groupRows g, row.mask = 0xF0FF#16 ∧ row.pattern = g ++ 0#4 ++ fieldNN row.pattern) :
    rowOf w = (groupRows g).find? fun row => fieldNN w == fieldNN row.pattern := by
  apply rowOf_eq_find?_groupRows hg
  intro row hrow
  obtain ⟨hmask, hpattern⟩ := hrows row hrow
  have hiff : row.matches w = true ↔ fieldNN w = fieldNN row.pattern :=
    calc row.matches w = true ↔ w &&& 0xF0FF#16 = g ++ 0#4 ++ fieldNN row.pattern := by
          rw [row.matches_iff, hmask, ← hpattern]
      _ ↔ fieldNN w = fieldNN row.pattern := (mask_d1_nn w g _).trans (and_iff_right hg)
  rw [Bool.eq_iff_iff, hiff, beq_iff_eq]

/-- Format FIXED: the mask reads the whole word. -/
theorem rowOf_by_word {w : Word} {g : Nibble} (hg : fieldD1 w = g)
    (hrows : ∀ row ∈ groupRows g, row.mask = 0xFFFF#16) :
    rowOf w = (groupRows g).find? fun row => w == row.pattern := by
  apply rowOf_eq_find?_groupRows hg
  intro row hrow
  rw [OpcodeRow.matches, hrows row hrow, show w &&& 0xFFFF#16 = w from BitVec.and_allOnes, beq_eq_decide]

/-! ### The decoder, group by group, names the row (R94) -/

theorem rowOf_group0 {w : Word} (hg : fieldD1 w = 0x0#4) :
    (rowOf w).map OpcodeRow.mnemonic = (decodeFixed w).map Instr.mnemonic := by
  rw [rowOf_by_word hg (by decide), decodeFixed]
  split_ifs with hnop hcls hret
  · rw [hnop]; rfl
  · rw [hcls]; rfl
  · rw [hret]; rfl
  · simp [groupRows, opcodeTable, fieldD1, hnop, hcls, hret]

/-- Groups 5 and 9: one row, which asks for a low nibble of 0. -/
theorem rowOf_groupXY0 {w : Word} {g : Nibble} {row : OpcodeRow} {mk : Reg → Reg → Instr} (hg : fieldD1 w = g)
    (hrow : groupRows g = [row]) (hformat : row.mask = 0xF00F#16 ∧ row.pattern = g ++ 0#8 ++ fieldN row.pattern)
    (hn : fieldN row.pattern = 0x0#4) (hmk : ∀ x y, (mk x y).mnemonic = row.mnemonic) :
    (rowOf w).map OpcodeRow.mnemonic = (decodeXY0 mk w).map Instr.mnemonic := by
  rw [rowOf_by_n hg (by simpa [hrow] using hformat), hrow, decodeXY0]
  split_ifs with h
  · simp [h, hn, hmk]
  · simp [h, hn]

/-- Group 8. The last branch is the low nibbles that no row lists; the others are one row each. -/
theorem rowOf_group8 {w : Word} (hg : fieldD1 w = 0x8#4) :
    (rowOf w).map OpcodeRow.mnemonic = (decodeGroup8 w).map Instr.mnemonic := by
  rw [rowOf_by_n hg (by decide), decodeGroup8]
  generalize fieldN w = n
  split
  case h_10 => simp_all [groupRows, opcodeTable, fieldD1, fieldN]
  all_goals rfl

/-- Group E, by the low byte as group 8 by the low nibble. -/
theorem rowOf_groupE {w : Word} (hg : fieldD1 w = 0xE#4) :
    (rowOf w).map OpcodeRow.mnemonic = (decodeGroupE w).map Instr.mnemonic := by
  rw [rowOf_by_nn hg (by decide), decodeGroupE]
  generalize fieldNN w = nn
  split
  case h_3 => simp_all [groupRows, opcodeTable, fieldD1, fieldNN]
  all_goals rfl

/-- Group F, by the low byte as group 8 by the low nibble. -/
theorem rowOf_groupF {w : Word} (hg : fieldD1 w = 0xF#4) :
    (rowOf w).map OpcodeRow.mnemonic = (decodeGroupF w).map Instr.mnemonic := by
  rw [rowOf_by_nn hg (by decide), decodeGroupF]
  generalize fieldNN w = nn
  split
  case h_10 => simp_all [groupRows, opcodeTable, fieldD1, fieldNN]
  all_goals rfl

/-- R93: a word decodes to a form with the mnemonic of the row that it matches, and to nothing when there is none. -/
theorem rowOf_mnemonic (w : Word) : (rowOf w).map OpcodeRow.mnemonic = (decode w).map Instr.mnemonic := by
  rw [decode]
  split
  case h_1 hg => exact rowOf_group0 hg
  case h_6 hg => exact rowOf_groupXY0 hg rfl ⟨rfl, rfl⟩ rfl fun _ _ => rfl
  case h_9 hg => exact rowOf_group8 hg
  case h_10 hg => exact rowOf_groupXY0 hg rfl ⟨rfl, rfl⟩ rfl fun _ _ => rfl
  case h_15 hg => exact rowOf_groupE hg
  case h_16 hg => exact rowOf_groupF hg
  case h_17 => -- no 4-bit value is left
    exfalso
    generalize fieldD1 w = g at *
    revert g
    decide
  all_goals -- the ten groups of one form
    rename_i hg
    rw [rowOf_by_d1 hg (by decide)]
    rfl

theorem OpcodeRow.matches_iff_decode {row : OpcodeRow} (hrow : row ∈ opcodeTable) (w : Word) :
    row.matches w = true ↔ ∃ i, decode w = some i ∧ i.mnemonic = row.mnemonic := by
  constructor
  · intro hm
    have hname := rowOf_mnemonic w
    rw [rowOf_eq_some_iff.mpr ⟨hrow, hm⟩, Option.map_some, eq_comm, Option.map_eq_some_iff] at hname
    exact hname
  · rintro ⟨i, hi, hname⟩
    have hfound := rowOf_mnemonic w
    rw [hi, Option.map_some, Option.map_eq_some_iff] at hfound
    obtain ⟨other, hother, hsame⟩ := hfound
    obtain ⟨hmem, hm⟩ := rowOf_eq_some_iff.mp hother
    exact OpcodeRow.eq_of_mnemonic hmem hrow (hsame.trans hname) ▸ hm

theorem decode_eq_none_iff (w : Word) : decode w = none ↔ ∀ row ∈ opcodeTable, row.matches w = false := by
  rw [← rowOf_eq_none_iff, ← Option.map_eq_none_iff (f := Instr.mnemonic), ← rowOf_mnemonic, Option.map_eq_none_iff]

/-- Settles O2: the decoder names the row that `rowOf` finds, and a word matches no second row. -/
theorem decodeIsTheOpcodeMap : Obligations.DecodeIsTheOpcodeMap :=
  ⟨rfl, fun _ => OpcodeRow.matches_iff_decode, opcodeTable_apart, decode_eq_none_iff⟩

end Sys2Proof
end

section
/-! SUPPORT. The tick cycle family (40_tick_cycle.md): NOP is the fetch's advance of `pc` and nothing more. -/

namespace Sys2Proof.Machine

/-- R122, written out: the fetch's part of a tick writes `pc` alone. -/
theorem State.advance_eq (s : State) : s.advance = { s with pc := s.pc + 2 } := rfl

/-- R126: nothing is executed on top of the fetch. -/
theorem exec_nop (s : State) : exec .nop s = .next s.advance := rfl

/-- Settles O23: of the two words only 0x0000 is in the opcode map, and NOP's next state is the fetch's. -/
theorem nopOnlyAdvances : Obligations.NopOnlyAdvances := by
  refine ⟨?nop, ?illegal, ?advances⟩
  case nop => decide
  case illegal => decide
  case advances =>
    intro s
    rw [exec_nop, State.advance_eq]

end Sys2Proof.Machine
end

section
/-! SUPPORT. The control flow family (41_control_flow.md). Jumps and skips end in the fetch's `advance` with one more
write of `pc`, so what they leave unchanged is one lemma for each of the two shapes of that write. -/

namespace Sys2Proof

/-! ### The words of the jumps and the skips (30_encoding.md R94) -/

theorem decode_jp (nnn : Addr) : decode (0x1#4 ++ nnn) = some (.jp nnn) := by
  rw [decode, fieldD1_nnn, fieldNNN_nnn]
  rfl

theorem decode_jpv0 (nnn : Addr) : decode (0xB#4 ++ nnn) = some (.jpv0 nnn) := by
  rw [decode, fieldD1_nnn, fieldNNN_nnn]
  rfl

theorem decode_sei (x : Reg) (nn : Byte) : decode (0x3#4 ++ x ++ nn) = some (.sei x nn) := by
  rw [decode, fieldD1_xnn, fieldX_xnn, fieldNN_xnn]
  rfl

theorem decode_snei (x : Reg) (nn : Byte) : decode (0x4#4 ++ x ++ nn) = some (.snei x nn) := by
  rw [decode, fieldD1_xnn, fieldX_xnn, fieldNN_xnn]
  rfl

theorem decodeXY0_xyn (mk : Reg → Reg → Instr) (g : Nibble) (x y : Reg) (n : Nibble) :
    decodeXY0 mk (g ++ x ++ y ++ n) = if n = 0 then some (mk x y) else none := by
  rw [decodeXY0, fieldN_xyn, fieldX_xyn, fieldY_xyn]
  rfl

theorem decode_group5 (x y : Reg) (n : Nibble) :
    decode (0x5#4 ++ x ++ y ++ n) = if n = 0 then some (.ser x y) else none := by
  rw [decode, fieldD1_xyn]
  exact decodeXY0_xyn _ _ _ _ _

theorem decode_group9 (x y : Reg) (n : Nibble) :
    decode (0x9#4 ++ x ++ y ++ n) = if n = 0 then some (.sner x y) else none := by
  rw [decode, fieldD1_xyn]
  exact decodeXY0_xyn _ _ _ _ _

end Sys2Proof

namespace Sys2Proof.Machine

variable {s : State} {i : Instr}

/-! ### Jumps -/

/-- R142, written out: the fetch's advance is overwritten. -/
theorem exec_jp (nnn : Addr) (s : State) : exec (.jp nnn) s = .next (s.advance.setPc (zextAddr nnn)) := rfl

/-- R144, written out. -/
theorem exec_jpv0 (nnn : Addr) (s : State) :
    exec (.jpv0 nnn) s = .next (s.advance.setPc (zextByte (s.getV 0) + zextAddr nnn)) := rfl

theorem State.advance_setPc_self (s : State) : s.advance.setPc s.pc = s := rfl

/-- R144: an 8-bit and a 12-bit number have a sum of at most 4350, which the 16-bit `pc` holds. -/
theorem zextByte_add_zextAddr_toNat (b : Byte) (nnn : Addr) :
    (zextByte b + zextAddr nnn).toNat = b.toNat + nnn.toNat := by
  have hb := b.isLt
  have hn := nnn.isLt
  rw [BitVec.toNat_add, zextByte_toNat, zextAddr_toNat]
  exact Nat.mod_eq_of_lt (by omega)

/-- A jump puts `pc` to its target and changes nothing else. -/
theorem completes_of_jump {target : Word} (h : exec i s = .next (s.advance.setPc target)) :
    Completes i s fun t => t.pc = target ∧ SameRegsBut [] s t ∧ SameRest s t :=
  ⟨_, h, rfl, fun _ _ => rfl, sameRest_of rfl⟩

/-- Settles O24: the jump's target is `nnn` as a number, and a jump to `pc` itself undoes the fetch's advance. -/
theorem jpJumps : Obligations.JpJumps := by
  intro nnn s
  refine ⟨decode_jp nnn, ?jumps, ?toItself⟩
  case jumps =>
    obtain ⟨t, hexec, hpc, hframe⟩ := completes_of_jump (exec_jp nnn s)
    exact ⟨t, hexec, by rw [hpc, zextAddr_toNat], hframe⟩
  case toItself =>
    intro hself
    have target : zextAddr nnn = s.pc := BitVec.eq_of_toNat_eq ((zextAddr_toNat nnn).trans hself)
    rw [exec_jp, target, State.advance_setPc_self]

/-- Settles O25: the sum of the two operands does not wrap. -/
theorem jpv0JumpsByRegisterZero : Obligations.Jpv0JumpsByRegisterZero := by
  intro nnn s
  refine ⟨decode_jpv0 nnn, ?jumps⟩
  case jumps =>
    obtain ⟨t, hexec, hpc, hframe⟩ := completes_of_jump (exec_jpv0 nnn s)
    exact ⟨t, hexec, by rw [hpc, zextByte_add_zextAddr_toNat], hframe⟩

/-! ### Skips -/

/-- R145, written out. -/
theorem exec_sei (x : Reg) (nn : Byte) (s : State) :
    exec (.sei x nn) s = .next (s.advance.skipIf (s.getV x = nn)) := rfl

/-- R146, written out. -/
theorem exec_snei (x : Reg) (nn : Byte) (s : State) :
    exec (.snei x nn) s = .next (s.advance.skipIf (s.getV x ≠ nn)) := rfl

/-- R147, written out. -/
theorem exec_ser (x y : Reg) (s : State) :
    exec (.ser x y) s = .next (s.advance.skipIf (s.getV x = s.getV y)) := rfl

/-- R148, written out. -/
theorem exec_sner (x y : Reg) (s : State) :
    exec (.sner x y) s = .next (s.advance.skipIf (s.getV x ≠ s.getV y)) := rfl

/-- A skip moves `pc` by 4 or by 2 and changes nothing else. -/
theorem completes_of_skip {c : Bool} (h : exec i s = .next (s.advance.skipIf c)) :
    Completes i s fun t => t.pc = (if c then s.pc + 4 else s.pc + 2) ∧ SameRegsBut [] s t ∧ SameRest s t :=
  ⟨_, h, s.advance_skipIf_pc c, fun r _ => s.advance.skipIf_getV c r, sameRest_skipIf s c⟩

/-- A skip on equality, with the bytes compared as numbers. -/
theorem completes_of_skip_eq {a b : Byte} (h : exec i s = .next (s.advance.skipIf (a = b))) :
    Completes i s fun t =>
      t.pc = (if a.toNat = b.toNat then s.pc + 4 else s.pc + 2) ∧ SameRegsBut [] s t ∧ SameRest s t := by
  simpa only [BitVec.toNat_inj, decide_eq_true_eq] using completes_of_skip h

/-- A skip on inequality: the two ways of `completes_of_skip_eq` exchanged. -/
theorem completes_of_skip_ne {a b : Byte} (h : exec i s = .next (s.advance.skipIf (a ≠ b))) :
    Completes i s fun t =>
      t.pc = (if a.toNat = b.toNat then s.pc + 2 else s.pc + 4) ∧ SameRegsBut [] s t ∧ SameRest s t := by
  simpa only [BitVec.toNat_inj, decide_eq_true_eq, ne_eq, ite_not] using completes_of_skip h

/-- Settles O26: SEI is a skip on equality with `nn`, SNEI one on inequality. -/
theorem immediateSkips : Obligations.ImmediateSkips := fun x nn s =>
  ⟨decode_sei x nn, decode_snei x nn, completes_of_skip_eq (exec_sei x nn s), completes_of_skip_ne (exec_snei x nn s)⟩

/-- Settles O27: SER is a skip on equality of the registers, SNER one on inequality; the decoder's test of the low nibble
tells their words from the illegal ones. -/
theorem registerSkips : Obligations.RegisterSkips := by
  intro x y s
  refine ⟨?ser, ?sner, ?illegal, completes_of_skip_eq (exec_ser x y s), completes_of_skip_ne (exec_sner x y s)⟩
  case ser => exact (decode_group5 x y 0).trans (if_pos rfl)
  case sner => exact (decode_group9 x y 0).trans (if_pos rfl)
  case illegal =>
    intro n hn
    rw [decode_group5, decode_group9, if_neg hn, if_neg hn]
    exact ⟨rfl, rfl⟩

end Sys2Proof.Machine
end

section
/-! SUPPORT. The register arithmetic and logic family (42_alu.md): a form that ends in the fetch's `advance` with one
register written, so what it leaves unchanged is one lemma about that shape. -/

namespace Sys2Proof

/-! ### The words of LDI and MOV (30_encoding.md R94) -/

theorem decode_ldi (x : Reg) (nn : Byte) : decode (0x6#4 ++ x ++ nn) = some (.ldi x nn) := by
  rw [decode, fieldD1_xnn, fieldX_xnn, fieldNN_xnn]
  rfl

theorem decode_mov (x y : Reg) : decode (0x8#4 ++ x ++ y ++ 0x0#4) = some (.mov x y) := by
  rw [decode, fieldD1_xyn]
  change decodeGroup8 _ = _
  rw [decodeGroup8, fieldN_xyn, fieldX_xyn, fieldY_xyn]
  rfl

end Sys2Proof

namespace Sys2Proof.Machine

/-- R162, written out. -/
theorem exec_ldi (x : Reg) (nn : Byte) (s : State) : exec (.ldi x nn) s = .next (s.advance.setV x nn) := rfl

/-- R164, written out: the source register is read before the destination is written. -/
theorem exec_mov (x y : Reg) (s : State) : exec (.mov x y) s = .next (s.advance.setV x (s.getV y)) := rfl

/-- A form that writes one register puts the byte there, advances `pc` by 2 and changes nothing else. -/
theorem completes_of_setV {i : Instr} {s : State} {x : Reg} {b : Byte} (h : exec i s = .next (s.advance.setV x b)) :
    Completes i s fun t => t.getV x = b ∧ SameRegsBut [x] s t ∧ t.pc = s.pc + 2 ∧ SameRest s t :=
  ⟨_, h, State.getV_setV_self _ x b, sameRegsBut_setV s x b, rfl, sameRest_of rfl⟩

/-- Settles O32: both forms write one register, LDI the immediate and MOV the old value of `Vy`. -/
theorem ldiAndMovCopy : Obligations.LdiAndMovCopy := fun x y nn s =>
  ⟨decode_ldi x nn, decode_mov x y, completes_of_setV (exec_ldi x nn s), completes_of_setV (exec_mov x y s)⟩

end Sys2Proof.Machine
end

section
/-! SUPPORT. The index register and memory transfer family (43_index_memory.md): a form that ends in the fetch's
`advance` with `I` written, so what it leaves unchanged is one lemma about that shape. -/

namespace Sys2Proof

/-! ### The word of LDIDX (30_encoding.md R94) -/

theorem decode_ldidx (nnn : Addr) : decode (0xA#4 ++ nnn) = some (.ldidx nnn) := by
  rw [decode, fieldD1_nnn, fieldNNN_nnn]
  rfl

end Sys2Proof

namespace Sys2Proof.Machine

/-- R191, written out. -/
theorem exec_ldidx (nnn : Addr) (s : State) : exec (.ldidx nnn) s = .next (s.advance.setI (zextAddr nnn)) := rfl

/-- A form that writes `I` puts the word there, advances `pc` by 2 and changes nothing else. -/
theorem completes_of_setI {i : Instr} {s : State} {a : Word} (h : exec i s = .next (s.advance.setI a)) :
    Completes i s fun t =>
      t.i = a ∧ SameRegsBut [] s t ∧ t.pc = s.pc + 2 ∧ SameRest s { t with i := s.i } :=
  ⟨_, h, State.setI_i _ a, fun r _ => State.setI_getV _ a r, rfl, sameRest_of rfl⟩

/-- Settles O41: LDIDX writes `I` alone, and the zero-extended `nnn` is `nnn` as a number. -/
theorem ldidxLoadsIndex : Obligations.LdidxLoadsIndex := by
  intro nnn s
  refine ⟨decode_ldidx nnn, ?loads⟩
  case loads =>
    obtain ⟨t, hexec, hindex, hframe⟩ := completes_of_setI (exec_ldidx nnn s)
    exact ⟨t, hexec, by rw [hindex, zextAddr_toNat], hframe⟩

end Sys2Proof.Machine
end

section
/-! SUPPORT. The display family (44_display.md): a form that ends in the fetch's `advance` with the framebuffer
written, so what it leaves unchanged is one lemma about that shape. -/

namespace Sys2Proof.Machine

/-- R211, written out. -/
theorem exec_cls (s : State) : exec .cls s = .next (s.advance.setFb FrameBuffer.clear) := rfl

/-- A form that writes the framebuffer alone puts it there, advances `pc` by 2 and changes nothing else. -/
theorem completes_of_setFb {i : Instr} {s : State} {fb : FrameBuffer} (h : exec i s = .next (s.advance.setFb fb)) :
    Completes i s fun t =>
      t.fb = fb ∧ SameRegsBut [] s t ∧ t.pc = s.pc + 2 ∧ SameRest s { t with fb := s.fb } :=
  ⟨_, h, State.setFb_fb _ fb, fun r _ => State.setFb_getV _ fb r, rfl, sameRest_of rfl⟩

/-- Settles O49: CLS writes the framebuffer alone, and the cleared framebuffer has no lit cell. -/
theorem clsClearsDisplay : Obligations.ClsClearsDisplay := by
  refine ⟨?word, ?clears⟩
  case word => decide
  case clears =>
    intro s
    obtain ⟨t, hexec, hfb, hframe⟩ := completes_of_setFb (exec_cls s)
    have unlit : ∀ p, t.fb.lit p = false := by
      intro p
      rw [hfb, FrameBuffer.lit_clear]
    exact ⟨t, hexec, unlit, hframe⟩

end Sys2Proof.Machine
end

section
/-! SUPPORT. The keypad and timers family (45_keypad_timers.md): a form that ends in the fetch's `advance` with one timer
written, so what it leaves unchanged is one lemma for each of the two timers. -/

namespace Sys2Proof

/-! ### The words of GETDT, SETDT and SETST (30_encoding.md R94) -/

theorem decode_groupF (x : Reg) (nn : Byte) : decode (0xF#4 ++ x ++ nn) = decodeGroupF (0xF#4 ++ x ++ nn) := by
  rw [decode, fieldD1_xnn]
  rfl

theorem decode_getdt (x : Reg) : decode (0xF#4 ++ x ++ 0x07#8) = some (.getdt x) := by
  rw [decode_groupF, decodeGroupF, fieldNN_xnn, fieldX_xnn]
  rfl

theorem decode_setdt (x : Reg) : decode (0xF#4 ++ x ++ 0x15#8) = some (.setdt x) := by
  rw [decode_groupF, decodeGroupF, fieldNN_xnn, fieldX_xnn]
  rfl

theorem decode_setst (x : Reg) : decode (0xF#4 ++ x ++ 0x18#8) = some (.setst x) := by
  rw [decode_groupF, decodeGroupF, fieldNN_xnn, fieldX_xnn]
  rfl

end Sys2Proof

namespace Sys2Proof.Machine

variable {s : State} {i : Instr} {b : Byte}

/-- R224, written out. -/
theorem exec_getdt (x : Reg) (s : State) : exec (.getdt x) s = .next (s.advance.setV x s.dt) := rfl

/-- R225, written out. -/
theorem exec_setdt (x : Reg) (s : State) : exec (.setdt x) s = .next (s.advance.setDt (s.getV x)) := rfl

/-- R226, written out. -/
theorem exec_setst (x : Reg) (s : State) : exec (.setst x) s = .next (s.advance.setSt (s.getV x)) := rfl

/-- A form that writes DT puts the byte there, advances `pc` by 2 and changes nothing else. -/
theorem completes_of_setDt (h : exec i s = .next (s.advance.setDt b)) :
    Completes i s fun t =>
      t.dt = b ∧ SameRegsBut [] s t ∧ t.pc = s.pc + 2 ∧ SameRest s { t with dt := s.dt } :=
  ⟨_, h, State.setDt_dt _ b, fun r _ => State.setDt_getV _ b r, rfl, sameRest_of rfl⟩

/-- A form that writes ST puts the byte there, advances `pc` by 2 and changes nothing else. -/
theorem completes_of_setSt (h : exec i s = .next (s.advance.setSt b)) :
    Completes i s fun t =>
      t.st = b ∧ SameRegsBut [] s t ∧ t.pc = s.pc + 2 ∧ SameRest s { t with st := s.st } :=
  ⟨_, h, State.setSt_st _ b, fun r _ => State.setSt_getV _ b r, rfl, sameRest_of rfl⟩

/-- Settles O54: GETDT writes one register, SETDT and SETST one timer each, and every source is read from the state
before. -/
theorem timerAccess : Obligations.TimerAccess := by
  intro x s
  refine ⟨decode_getdt x, decode_setdt x, decode_setst x, ?getdt, ?setdt, ?setst⟩
  case getdt => exact completes_of_setV (exec_getdt x s)
  case setdt => exact completes_of_setDt (exec_setdt x s)
  case setst => exact completes_of_setSt (exec_setst x s)

end Sys2Proof.Machine
end

section
/-! SUPPORT. The exceptions and events family (60_exceptions.md): the timers count in the host's `tick_timers` alone.
Everything an executed form can do to them is said once, as an inversion of `exec`: SETDT and SETST write one timer each,
and the other forms none. -/

namespace Sys2Proof.Machine

variable {s t : State} {i : Instr}

/-! ### The timers counted by `tick_timers` -/

/-- R252: the floor at 0 is that of the subtraction of naturals. -/
theorem countDown_toNat (b : Byte) : (countDown b).toNat = b.toNat - 1 := by
  rw [countDown]
  split_ifs with hzero
  · rw [hzero]
    rfl
  · have positive : b.toNat ≠ 0 := fun h => hzero (BitVec.eq_of_toNat_eq h)
    exact BitVec.toNat_sub_of_le (by rw [BitVec.le_def, BitVec.toNat_ofNat]; omega)

theorem tickTimers_frame (s : State) : tickTimers s = { s with dt := (tickTimers s).dt, st := (tickTimers s).st } := rfl

/-! ### The timers under an executed form (40_tick_cycle.md R124) -/

theorem sameTimers_skipIf (s : State) (c : Bool) : SameTimers s (s.advance.skipIf c) := (sameRest_skipIf s c).timers

/-- Everything an executed form can do to the timers. -/
theorem exec_timers_cases (h : exec i s = .next t) :
    (∃ x, i = .setdt x ∧ t = s.advance.setDt (s.getV x)) ∨
    (∃ x, i = .setst x ∧ t = s.advance.setSt (s.getV x)) ∨
    SameTimers s t := by
  cases i
  case setdt x => cases h; exact .inl ⟨x, rfl, rfl⟩
  case setst x => cases h; exact .inr (.inl ⟨x, rfl, rfl⟩)
  all_goals refine .inr (.inr ?_)
  -- the skips
  case sei | snei | ser | sner => cases h; exact sameTimers_skipIf s _
  case skp =>
    obtain ⟨k, -, rfl⟩ | ⟨-, rfl⟩ := exec_skp_cases h
    · exact sameTimers_skipIf s _
    · exact ⟨rfl, rfl⟩
  case sknp =>
    obtain ⟨k, -, rfl⟩ | ⟨-, rfl⟩ := exec_sknp_cases h
    · exact sameTimers_skipIf s _
    · exact ⟨rfl, rfl⟩
  -- the forms with a second ending, a fault or WAITK's wait: neither ending writes a timer
  case ret => obtain ⟨_, _, rfl⟩ | ⟨-, rfl⟩ := exec_ret_cases h <;> exact ⟨rfl, rfl⟩
  case call => obtain ⟨_, rfl⟩ | ⟨-, rfl⟩ := exec_call_cases h <;> exact ⟨rfl, rfl⟩
  case drw => obtain ⟨-, rfl⟩ | ⟨-, -, rfl⟩ := exec_drw_cases h <;> exact ⟨rfl, rfl⟩
  case bcd => obtain ⟨-, rfl⟩ | ⟨-, rfl⟩ := exec_bcd_cases h <;> exact ⟨rfl, rfl⟩
  case store => obtain ⟨-, rfl⟩ | ⟨-, rfl⟩ := exec_store_cases h <;> exact ⟨rfl, rfl⟩
  case load => obtain ⟨-, rfl⟩ | ⟨-, rfl⟩ := exec_load_cases h <;> exact ⟨rfl, rfl⟩
  case waitk => obtain ⟨k, -, -, rfl⟩ | ⟨-, rfl⟩ := exec_waitk_cases h <;> exact ⟨rfl, rfl⟩
  -- the forms with one ending, which writes other parts of the state
  all_goals cases h; exact ⟨rfl, rfl⟩

theorem exec_dt_of_ne_setdt (h : exec i s = .next t) (hne : ∀ x, i ≠ .setdt x) : t.dt = s.dt := by
  obtain ⟨x, hi, -⟩ | ⟨x, -, rfl⟩ | ⟨hdt, -⟩ := exec_timers_cases h
  · exact absurd hi (hne x)
  · rfl
  · exact hdt

theorem exec_st_of_ne_setst (h : exec i s = .next t) (hne : ∀ x, i ≠ .setst x) : t.st = s.st := by
  obtain ⟨x, -, rfl⟩ | ⟨x, hi, -⟩ | ⟨-, hst⟩ := exec_timers_cases h
  · rfl
  · exact absurd hi (hne x)
  · exact hst

/-- Settles O55: `tick_timers` counts each timer down to a floor of 0, and by `exec_timers_cases` an executed form
changes a timer only when it is the one that writes it. -/
theorem tickTimersCountDown : Obligations.TickTimersCountDown := by
  refine ⟨?counts, ?keeps⟩
  case counts =>
    intro s
    exact ⟨countDown_toNat s.dt, countDown_toNat s.st, tickTimers_frame s⟩
  case keeps =>
    intro i s t h
    exact ⟨exec_dt_of_ne_setdt h, exec_st_of_ne_setst h⟩

end Sys2Proof.Machine
end

section
/-! SUPPORT. Encoding and decoding as inverses (30_encoding.md): the decoder on the encoder's words, form by form along
R94's groups; the words that no form has (R97); and the opcode map's assembly of a line (R100), one lemma per format. -/

namespace Sys2Proof

/-! ### The decoder on a word laid out from its parts (R93, R94) -/

theorem decode_group8 (x y : Reg) (n : Nibble) :
    decode (0x8#4 ++ x ++ y ++ n) = decodeGroup8 (0x8#4 ++ x ++ y ++ n) := by
  rw [decode, fieldD1_xyn]
  rfl

theorem decode_groupE (x : Reg) (nn : Byte) : decode (0xE#4 ++ x ++ nn) = decodeGroupE (0xE#4 ++ x ++ nn) := by
  rw [decode, fieldD1_xnn]
  rfl

/-- Settles O1: the fields of an encoded word are the operands it was laid out from, and its group, low nibble or low
byte is the one by which the decoder chooses the form. -/
theorem decodeOfEncode : Obligations.DecodeOfEncode := by
  intro i
  cases i
  case nop | cls | ret => rfl
  case jp nnn | call nnn | ldidx nnn | jpv0 nnn =>
    rw [encode, decode, fieldD1_nnn, fieldNNN_nnn]
    rfl
  case sei x nn | snei x nn | ldi x nn | addi x nn | rnd x nn =>
    rw [encode, decode, fieldD1_xnn, fieldX_xnn, fieldNN_xnn]
    rfl
  case ser x y => exact (decode_group5 x y 0).trans (if_pos rfl)
  case sner x y => exact (decode_group9 x y 0).trans (if_pos rfl)
  case mov x y | or x y | and x y | xor x y | add x y | sub x y | subn x y =>
    rw [encode, decode_group8, decodeGroup8, fieldN_xyn, fieldX_xyn, fieldY_xyn]
    rfl
  case shr x | shl x =>
    rw [encode, decode_group8, decodeGroup8, fieldN_xyn, fieldX_xyn]
    rfl
  case drw x y n =>
    rw [encode, decode, fieldD1_xyn, fieldX_xyn, fieldY_xyn, fieldN_xyn]
    rfl
  case skp x | sknp x =>
    rw [encode, decode_groupE, decodeGroupE, fieldNN_xnn, fieldX_xnn]
    rfl
  case getdt x | waitk x | setdt x | setst x | addidx x | glyph x | bcd x | store x | load x =>
    rw [encode, decode_groupF, decodeGroupF, fieldNN_xnn, fieldX_xnn]
    rfl

/-- Settles O5: group 8 with the low nibbles 6 and E reads the `x` field alone. -/
theorem shiftsIgnoreY : Obligations.ShiftsIgnoreY := by
  intro x y
  refine ⟨?shr, ?shl, rfl, rfl⟩
  case shr | shl =>
    rw [decode_group8, decodeGroup8, fieldN_xyn, fieldX_xyn]
    rfl

/-- Settles O7: twelve closed words, each decoded by evaluation. -/
theorem sampleWordsDecode : Obligations.SampleWordsDecode := by
  unfold Obligations.SampleWordsDecode
  decide

/-! ### The words that no form has, group by group (R97) -/

theorem decodeFixed_eq_none_iff (w : Word) :
    decodeFixed w = none ↔ w ≠ 0x0000 ∧ w ≠ 0x00E0 ∧ w ≠ 0x00EE := by
  rw [decodeFixed]
  split_ifs <;> simp_all

theorem decodeXY0_eq_none_iff (mk : Reg → Reg → Instr) (w : Word) : decodeXY0 mk w = none ↔ fieldN w ≠ 0 := by
  simp [decodeXY0]

theorem decodeGroup8_eq_none_iff (w : Word) :
    decodeGroup8 w = none ↔ fieldN w ∈ [0x8, 0x9, 0xA, 0xB, 0xC, 0xD, 0xF] := by
  rw [decodeGroup8]
  generalize fieldN w = n
  constructor
  · split
    case h_10 => revert n; decide
    all_goals exact nofun
  · intro h
    fin_cases h <;> rfl

theorem decodeGroupE_eq_none_iff (w : Word) : decodeGroupE w = none ↔ fieldNN w ∉ [0x9E, 0xA1] := by
  rw [decodeGroupE]
  generalize fieldNN w = nn
  split <;> simp_all

theorem decodeGroupF_eq_none_iff (w : Word) :
    decodeGroupF w = none ↔ fieldNN w ∉ [0x07, 0x0A, 0x15, 0x18, 0x1E, 0x29, 0x33, 0x55, 0x65] := by
  rw [decodeGroupF]
  generalize fieldNN w = nn
  split <;> simp_all

/-- Settles O3: the six groups with illegal words are the decoder's six branches that can answer `none`. -/
theorem illegalWordsByGroup : Obligations.IllegalWordsByGroup := by
  intro w
  rw [decode]
  split
  case h_1 hg => simp [hg, decodeFixed_eq_none_iff]
  case h_6 hg => simp [hg, decodeXY0_eq_none_iff]
  case h_9 hg => simp [hg, decodeGroup8_eq_none_iff]
  case h_10 hg => simp [hg, decodeXY0_eq_none_iff]
  case h_15 hg => simp [hg, decodeGroupE_eq_none_iff]
  case h_16 hg => simp [hg, decodeGroupF_eq_none_iff]
  case h_17 => -- no 4-bit value is left
    exfalso
    generalize fieldD1 w = g at *
    revert g
    decide
  all_goals -- the ten groups without illegal words
    rename_i hg
    simp [hg]

/-! ### Assembling a line by its row of the opcode map (R100) -/

theorem fits_x (x : Reg) : Slot.fits .x x.toNat = true := decide_eq_true x.isLt

theorem fits_y (y : Reg) : Slot.fits .y y.toNat = true := decide_eq_true y.isLt

theorem fits_n (n : Nibble) : Slot.fits .n n.toNat = true := decide_eq_true n.isLt

theorem fits_nn (nn : Byte) : Slot.fits .nn nn.toNat = true := decide_eq_true nn.isLt

theorem fits_nnn (nnn : Addr) : Slot.fits .nnn nnn.toNat = true := decide_eq_true nnn.isLt

/-- Each operand has its field's width as its type. -/
theorem operandsFit_operands (i : Instr) : operandsFit i.operands = true := by
  cases i <;> simp [Instr.operands, operandsFit, fits_x, fits_y, fits_n, fits_nn, fits_nnn]

/-- The opcode map has a row of this mnemonic, with this pattern and these operand fields. -/
abbrev HasRow (mnemonic : String) (pattern : Word) (slots : List Slot) : Prop :=
  ∃ row ∈ opcodeTable, row.mnemonic = mnemonic ∧ row.pattern = pattern ∧ row.slots = slots

theorem assembleWord_of_mem {row : OpcodeRow} (hrow : row ∈ opcodeTable) (ops : List Nat) :
    assembleWord row.mnemonic ops = row.assemble ops := by
  rw [assembleWord]
  cases hfound : opcodeTable.find? fun other => other.mnemonic == row.mnemonic with
  | none => simpa using List.find?_eq_none.mp hfound row hrow
  | some other =>
    have hname : other.mnemonic = row.mnemonic := by simpa using List.find?_some hfound
    rw [OpcodeRow.eq_of_mnemonic (List.mem_of_find?_eq_some hfound) hrow hname]

/-- A word with more operands placed in their fields. -/
def placeAll (pattern : Word) (ops : List (Slot × Nat)) : Word := ops.foldl (fun w o => w ||| o.1.place o.2) pattern

/-- A line of an instruction's mnemonic and operands is its row's pattern with each operand placed in its field. -/
theorem assembleWord_of_hasRow {i : Instr} {m : String} {pattern : Word} {ops : List (Slot × Nat)}
    (hname : i.mnemonic = m) (hops : i.operands = ops) (h : HasRow m pattern (ops.map Prod.fst)) :
    assembleWord i.mnemonic (i.operands.map Prod.snd) = some (placeAll pattern ops) := by
  obtain ⟨row, hrow, rfl, rfl, hslots⟩ := h
  subst hops
  have pairs : row.slots.zip (i.operands.map Prod.snd) = i.operands := by
    rw [hslots, List.zip_map', List.map_id']
  have hlength : row.slots.length = i.operands.length := by rw [hslots, List.length_map]
  rw [hname, assembleWord_of_mem hrow, OpcodeRow.assemble, pairs, List.length_map, hlength, operandsFit_operands,
    if_pos ⟨rfl, rfl⟩]
  rfl

/-! Each format's operands, placed in the bits that its pattern leaves 0. -/

theorem or_xnn (g h x y : Nibble) (a b : Byte) : (g ++ x ++ a : Word) ||| (h ++ y ++ b) =
    (g ||| h) ++ (x ||| y) ++ (a ||| b) := by
  refine (BitVec.or_append (x₁ := g ++ x)).trans ?_
  congr 1
  exact BitVec.or_append

theorem placeAll_nnn (g : Nibble) (nnn : Addr) : placeAll (g ++ 0#12) [(.nnn, nnn.toNat)] = g ++ nnn := by
  rw [placeAll, List.foldl_cons, List.foldl_nil, place_nnn, or_nnn, BitVec.or_zero, BitVec.zero_or]

theorem placeAll_x (g : Nibble) (x : Reg) (low : Byte) :
    placeAll (g ++ 0#4 ++ low) [(.x, x.toNat)] = g ++ x ++ low := by
  rw [placeAll, List.foldl_cons, List.foldl_nil, place_x, or_xnn, BitVec.or_zero, BitVec.zero_or, BitVec.or_zero]

theorem placeAll_xnn (g : Nibble) (x : Reg) (nn : Byte) :
    placeAll (g ++ 0#4 ++ 0#8) [(.x, x.toNat), (.nn, nn.toNat)] = g ++ x ++ nn := by
  have hx := placeAll_x g x 0#8
  rw [placeAll, List.foldl_cons, List.foldl_nil] at hx
  rw [placeAll, List.foldl_cons, List.foldl_cons, List.foldl_nil, hx, place_nn, or_xnn, BitVec.or_zero, BitVec.or_zero,
    BitVec.zero_or]

theorem placeAll_xy (g : Nibble) (x y : Reg) (n : Nibble) :
    placeAll (g ++ 0#4 ++ 0#4 ++ n) [(.x, x.toNat), (.y, y.toNat)] = g ++ x ++ y ++ n := by
  have hx : Slot.place .x x.toNat = 0#4 ++ x ++ 0#4 ++ 0#4 :=
    (place_x x).trans (BitVec.append_assoc (x₁ := 0#4 ++ x) (x₂ := 0#4) (x₃ := 0#4)).symm
  rw [placeAll, List.foldl_cons, List.foldl_cons, List.foldl_nil, hx, place_y, or_xyn, or_xyn]
  simp only [BitVec.or_zero, BitVec.zero_or]

theorem placeAll_xyn (g : Nibble) (x y : Reg) (n : Nibble) :
    placeAll (g ++ 0#4 ++ 0#4 ++ 0#4) [(.x, x.toNat), (.y, y.toNat), (.n, n.toNat)] = g ++ x ++ y ++ n := by
  have hxy := placeAll_xy g x y 0#4
  rw [placeAll, List.foldl_cons, List.foldl_cons, List.foldl_nil] at hxy
  rw [placeAll, List.foldl_cons, List.foldl_cons, List.foldl_cons, List.foldl_nil, hxy, place_n, or_xyn]
  simp only [BitVec.or_zero, BitVec.zero_or]

/-- The low byte of a shift's word: a `y` field of 0 and the low nibble. -/
theorem encode_shift (g x n : Nibble) : (g ++ x ++ 0x0#4 ++ n : Word) = g ++ x ++ (0x0#4 ++ n) :=
  BitVec.append_assoc (x₁ := g ++ x) (x₂ := 0x0#4) (x₃ := n)

/-- Settles O6: the row of a mnemonic has the fields of its form's operands, and its pattern with the operands placed is
the encoding, format by format. -/
theorem assemblerAgreesWithEncoder : Obligations.AssemblerAgreesWithEncoder := by
  intro i
  cases i
  case nop | cls | ret => exact assembleWord_of_hasRow rfl rfl (by decide)
  case jp nnn | call nnn | ldidx nnn | jpv0 nnn =>
    rw [encode, ← placeAll_nnn]
    exact assembleWord_of_hasRow rfl rfl (of_decide_eq_true rfl)
  case sei x nn | snei x nn | ldi x nn | addi x nn | rnd x nn =>
    rw [encode, ← placeAll_xnn]
    exact assembleWord_of_hasRow rfl rfl (of_decide_eq_true rfl)
  case ser x y | mov x y | or x y | and x y | xor x y | add x y | sub x y | subn x y | sner x y =>
    rw [encode, ← placeAll_xy]
    exact assembleWord_of_hasRow rfl rfl (of_decide_eq_true rfl)
  case drw x y n =>
    rw [encode, ← placeAll_xyn]
    exact assembleWord_of_hasRow rfl rfl (of_decide_eq_true rfl)
  case skp x | sknp x | getdt x | waitk x | setdt x | setst x | addidx x | glyph x | bcd x | store x | load x =>
    rw [encode, ← placeAll_x]
    exact assembleWord_of_hasRow rfl rfl (of_decide_eq_true rfl)
  case shr x | shl x =>
    rw [encode, encode_shift, ← placeAll_x]
    exact assembleWord_of_hasRow rfl rfl (of_decide_eq_true rfl)

end Sys2Proof
end

section
/-! SUPPORT. The stack instructions and the key instructions (41_control_flow.md, 45_keypad_timers.md): what each does
under each of its conditions, and from that what it leaves unchanged. The word of a form is read back by
`decodeOfEncode`. -/

namespace Sys2Proof.Machine

variable {s : State} {i : Instr}

/-! ### CALL and RET below and at the stack's bounds (R141, R143) -/

theorem exec_call_of_room (nnn : Addr) (room : s.sp.val < 16) :
    exec (.call nnn) s = .next { s with stack := s.stack.set s.sp.val (s.pc + 2) room,
                                        sp := ⟨s.sp.val + 1, Nat.succ_lt_succ room⟩, pc := zextAddr nnn } := by
  rw [exec, execCall, State.push_of_room _ (show s.advance.sp.val < 16 from room)]
  rfl

theorem exec_call_of_full (nnn : Addr) (full : s.sp.val = 16) :
    exec (.call nnn) s = .next (faulted s .stackOverflow (encode (.call nnn)).toNat) := by
  rw [exec, execCall, State.push_of_full _ (show s.advance.sp.val = 16 from full), raise_eq]

theorem exec_ret_of_pending (k : Fin 16) (h : s.sp.val = k.val + 1) :
    exec .ret s = .next { s with sp := k.castSucc, pc := s.stack.get k } := by
  have top : s.sp.val - 1 = k.val := by omega
  have pending : s.advance.sp.val ≠ 0 := by
    rw [State.advance_sp]
    omega
  rw [exec, execRet, State.pop_of_some pending]
  simp only [State.advance_sp, State.advance_stack, top]
  rfl

theorem exec_ret_of_empty (empty : s.sp.val = 0) :
    exec .ret s = .next (faulted s .stackUnderflow (encode .ret).toNat) := by
  rw [exec, execRet, State.pop_of_empty (show s.advance.sp.val = 0 from empty), raise_eq]

/-- R240: the `info` of a `StackOverflow` is the CALL's word. -/
theorem encode_call_toNat (nnn : Addr) : (encode (.call nnn)).toNat = 0x2000 + nnn.toNat := by
  rw [encode, BitVec.toNat_append, ← Nat.shiftLeft_add_eq_or_of_lt nnn.isLt]
  rfl

/-- Settles O28: CALL writes the slot at the pointer, the pointer and `pc`, so every other slot is kept. -/
theorem callPushesReturnAddress : Obligations.CallPushesReturnAddress := by
  intro nnn s
  refine ⟨decodeOfEncode (.call nnn), fun room => ⟨_, exec_call_of_room nnn room, ?_⟩⟩
  have others : ∀ k : Fin 16, k.val ≠ s.sp.val → (s.stack.set s.sp.val (s.pc + 2) room).get k = s.stack.get k :=
    fun k hk => Vector.getElem_set_ne room k.isLt hk.symm
  exact ⟨Vector.getElem_set_self room, rfl, zextAddr_toNat nnn, others, fun _ _ => rfl, sameRest_of rfl⟩

/-- Settles O29: RET writes the pointer and `pc` alone. -/
theorem retPopsReturnAddress : Obligations.RetPopsReturnAddress := by
  refine ⟨decodeOfEncode .ret, fun s k h => ⟨_, exec_ret_of_pending k h, ?_⟩⟩
  exact ⟨rfl, rfl, fun _ => rfl, fun _ _ => rfl, sameRest_of rfl⟩

/-- Settles O30: at the stack's two ends CALL and RET raise their faults, each with its own word. -/
theorem stackFaults : Obligations.StackFaults := by
  refine ⟨?call, ?ret⟩
  case call =>
    intro nnn s full
    rw [exec_call_of_full nnn full, encode_call_toNat]
  case ret =>
    intro s empty
    rw [exec_ret_of_empty empty]
    rfl

/-- Settles O31: the entry that the RET pops is the one that the CALL pushed, at the CALL's own pointer. -/
theorem retUndoesCall : Obligations.RetUndoesCall := by
  intro nnn s t u w room hcall hstack hsp hret
  rw [exec_call_of_room nnn room] at hcall
  cases hcall
  have pending : u.sp.val = s.sp.val + 1 := congrArg Fin.val hsp
  rw [exec_ret_of_pending ⟨s.sp.val, room⟩ pending] at hret
  cases hret
  have popped : u.stack.get ⟨s.sp.val, room⟩ = s.pc + 2 := by
    rw [hstack]
    exact Vector.getElem_set_self room
  exact ⟨popped, rfl⟩

/-! ### SKP and SKNP (R220 to R222) -/

theorem keyIndex_of_eq {a : Byte} {k : Fin 16} (h : a.toNat = k.val) : keyIndex a = some k := by
  rw [keyIndex_of_le (h ▸ k.isLt)]
  exact congrArg some (Fin.ext h)

theorem exec_skp_of_key {x : Reg} (k : Fin 16) (h : (s.getV x).toNat = k.val) :
    exec (.skp x) s = .next (s.advance.skipIf (s.key.get k)) := by
  rw [exec, execSkp, keyIndex_of_eq h]

theorem exec_sknp_of_key {x : Reg} (k : Fin 16) (h : (s.getV x).toNat = k.val) :
    exec (.sknp x) s = .next (s.advance.skipIf (!s.key.get k)) := by
  rw [exec, execSknp, keyIndex_of_eq h]

theorem exec_skp_beyond {x : Reg} (h : 15 < (s.getV x).toNat) :
    exec (.skp x) s = .next (faulted s .keyIndexOutOfRange (s.getV x).toNat) := by
  rw [exec, execSkp, keyIndex_of_gt h, raise_eq]

theorem exec_sknp_beyond {x : Reg} (h : 15 < (s.getV x).toNat) :
    exec (.sknp x) s = .next (faulted s .keyIndexOutOfRange (s.getV x).toNat) := by
  rw [exec, execSknp, keyIndex_of_gt h, raise_eq]

/-- A skip when a key is up: the two ways of `completes_of_skip` exchanged. -/
theorem completes_of_skip_not {c : Bool} (h : exec i s = .next (s.advance.skipIf (!c))) :
    Completes i s fun t => t.pc = (if c then s.pc + 2 else s.pc + 4) ∧ SameRegsBut [] s t ∧ SameRest s t := by
  cases c <;> exact completes_of_skip h

/-- Settles O52: with a key's index in the register both forms are skips on that key; otherwise both fault. -/
theorem keySkips : Obligations.KeySkips := by
  intro x s
  refine ⟨decodeOfEncode (.skp x), decodeOfEncode (.sknp x), ?skips, ?faults⟩
  case skips =>
    intro k hk
    exact ⟨completes_of_skip (exec_skp_of_key k hk), completes_of_skip_not (exec_sknp_of_key k hk)⟩
  case faults =>
    intro beyond
    exact ⟨exec_skp_beyond beyond, exec_sknp_beyond beyond⟩

/-! ### WAITK (R223) -/

theorem exec_waitk_of_none {x : Reg} (h : ∀ k, s.key.get k = false) : exec (.waitk x) s = .next s := by
  rw [exec, execWaitk, (leastPressed_eq_none s.key).mpr h]
  exact congrArg _ s.advance_rewind

theorem exec_waitk_of_least {x : Reg} (k : Fin 16) (down : s.key.get k = true)
    (least : ∀ j, j < k → s.key.get j = false) :
    exec (.waitk x) s = .next (s.advance.setV x (BitVec.ofNat 8 k.val)) := by
  rw [exec, execWaitk, (leastPressed_eq_some s.key k.val).mpr ⟨k.isLt, down, least⟩]

/-- Settles O53: with no key down the rewind undoes the fetch's advance; otherwise WAITK writes one register, which holds
every key's index. -/
theorem waitkPollsForTheLeastKey : Obligations.WaitkPollsForTheLeastKey := by
  intro x s
  refine ⟨decodeOfEncode (.waitk x), exec_waitk_of_none, ?takes⟩
  case takes =>
    intro k down least
    obtain ⟨t, hexec, hx, hframe⟩ := completes_of_setV (exec_waitk_of_least (x := x) k down least)
    have index : (BitVec.ofNat 8 k.val).toNat = k.val := Nat.mod_eq_of_lt (by omega)
    exact ⟨t, hexec, by rw [hx, index], hframe⟩

end Sys2Proof.Machine
end

section
/-! SUPPORT. The flags and the forms that write a register beside `VF` (42_alu.md): one lemma for each order of the two
writes (R161), and each result as a number. -/

namespace Sys2Proof.Machine

variable {s : State} {i : Instr} {x : Reg} {a b : Byte}

/-! ### The flags as numbers (R160) -/

theorem flag_toNat (c : Bool) : (flag c).toNat = if c then 1 else 0 := by cases c <;> rfl

theorem carryFlag_toNat (a b : Byte) : (carryFlag a b).toNat = if 255 < a.toNat + b.toNat then 1 else 0 := by
  simp [carryFlag, flag_toNat]

theorem notBorrowFlag_toNat (a b : Byte) : (notBorrowFlag a b).toNat = if a.toNat < b.toNat then 0 else 1 := by
  rw [notBorrowFlag, flag_toNat]
  simp only [Bool.not_eq_true', decide_eq_false_iff_not, ite_not]

theorem lowBitFlag_toNat (a : Byte) : (lowBitFlag a).toNat = a.toNat % 2 := by
  simp [lowBitFlag, BitVec.toNat_and, Nat.and_one_is_mod]

theorem highBitFlag_toNat (a : Byte) : (highBitFlag a).toNat = if 128 ≤ a.toNat then 1 else 0 := by
  have ha := a.isLt
  rw [highBitFlag, BitVec.toNat_and, BitVec.toNat_ushiftRight, Nat.shiftRight_eq_div_pow]
  change _ &&& 1 = _
  rw [Nat.and_one_is_mod]
  split_ifs <;> omega

/-- A difference of bytes, modulo 256. -/
theorem sub_toNat (a b : Byte) :
    (a - b).toNat = if b.toNat ≤ a.toNat then a.toNat - b.toNat else a.toNat + 256 - b.toNat := by
  have ha := a.isLt
  have hb := b.isLt
  rw [BitVec.toNat_sub]
  split_ifs <;> omega

/-! ### One register written -/

/-- R163, written out. -/
theorem exec_addi (x : Reg) (nn : Byte) (s : State) :
    exec (.addi x nn) s = .next (s.advance.setV x (s.getV x + nn)) := rfl

/-- R165, written out. -/
theorem exec_or (x y : Reg) (s : State) :
    exec (.or x y) s = .next (s.advance.setV x (s.getV x ||| s.getV y)) := rfl

/-- R166, written out. -/
theorem exec_and (x y : Reg) (s : State) :
    exec (.and x y) s = .next (s.advance.setV x (s.getV x &&& s.getV y)) := rfl

/-- R167, written out. -/
theorem exec_xor (x y : Reg) (s : State) :
    exec (.xor x y) s = .next (s.advance.setV x (s.getV x ^^^ s.getV y)) := rfl

/-- Settles O33: the sum of bytes is that of their numbers modulo 256. -/
theorem addiWrapsWithoutFlag : Obligations.AddiWrapsWithoutFlag := by
  intro x nn s
  refine ⟨decodeOfEncode (.addi x nn), ?adds⟩
  case adds =>
    obtain ⟨t, hexec, hx, hframe⟩ := completes_of_setV (exec_addi x nn s)
    exact ⟨t, hexec, by rw [hx, BitVec.toNat_add], hframe⟩

/-- Settles O34: each form writes one register, with an operation that acts on each bit by itself. -/
theorem bitwiseOperations : Obligations.BitwiseOperations := by
  intro x y s
  refine ⟨decodeOfEncode (.or x y), decodeOfEncode (.and x y), decodeOfEncode (.xor x y), ?or, ?and, ?xor⟩
  case or =>
    obtain ⟨t, hexec, hx, hframe⟩ := completes_of_setV (exec_or x y s)
    exact ⟨t, hexec, fun k _ => by rw [hx, BitVec.getLsbD_or], hframe⟩
  case and =>
    obtain ⟨t, hexec, hx, hframe⟩ := completes_of_setV (exec_and x y s)
    exact ⟨t, hexec, fun k _ => by rw [hx, BitVec.getLsbD_and], hframe⟩
  case xor =>
    obtain ⟨t, hexec, hx, hframe⟩ := completes_of_setV (exec_xor x y s)
    exact ⟨t, hexec, fun k _ => by rw [hx, BitVec.getLsbD_xor], hframe⟩

/-! ### The result, then the flag (R168, R169, R171) -/

/-- R168, written out. -/
theorem exec_add (x y : Reg) (s : State) : exec (.add x y) s =
    .next ((s.advance.setV x (s.getV x + s.getV y)).setV VF (carryFlag (s.getV x) (s.getV y))) := rfl

/-- R169, written out. -/
theorem exec_sub (x y : Reg) (s : State) : exec (.sub x y) s =
    .next ((s.advance.setV x (s.getV x - s.getV y)).setV VF (notBorrowFlag (s.getV x) (s.getV y))) := rfl

/-- R171, written out. -/
theorem exec_subn (x y : Reg) (s : State) : exec (.subn x y) s =
    .next ((s.advance.setV x (s.getV y - s.getV x)).setV VF (notBorrowFlag (s.getV y) (s.getV x))) := rfl

/-- A form that writes its result and then `VF` leaves the flag there, whatever the destination is. -/
theorem completes_of_setV_flag (h : exec i s = .next ((s.advance.setV x a).setV VF b)) :
    Completes i s fun t => (x ≠ VF → t.getV x = a) ∧ t.getV VF = b ∧
      SameRegsBut [x, VF] s t ∧ t.pc = s.pc + 2 ∧ SameRest s t := by
  have result : x ≠ VF → ((s.advance.setV x a).setV VF b).getV x = a := fun hx => by
    rw [State.getV_setV_ne _ b hx, State.getV_setV_self]
  exact ⟨_, h, result, State.getV_setV_self _ VF b, sameRegsBut_setV_setV s x VF a b, rfl, sameRest_of rfl⟩

/-- Settles O35: the sum modulo 256 in `Vx`, then the carry in `VF`. -/
theorem addWritesSumThenCarry : Obligations.AddWritesSumThenCarry := by
  intro x y s
  refine ⟨decodeOfEncode (.add x y), ?adds⟩
  case adds =>
    obtain ⟨t, hexec, hx, hflag, hframe⟩ := completes_of_setV_flag (exec_add x y s)
    exact ⟨t, hexec, fun hne => by rw [hx hne, BitVec.toNat_add], by rw [hflag, carryFlag_toNat], hframe⟩

/-- Settles O36: the difference modulo 256 in `Vx`, then not-borrow in `VF`. -/
theorem subWritesDifferenceThenNotBorrow : Obligations.SubWritesDifferenceThenNotBorrow := by
  intro x y s
  refine ⟨decodeOfEncode (.sub x y), ?subtracts⟩
  case subtracts =>
    obtain ⟨t, hexec, hx, hflag, hframe⟩ := completes_of_setV_flag (exec_sub x y s)
    exact ⟨t, hexec, fun hne => by rw [hx hne, sub_toNat], by rw [hflag, notBorrowFlag_toNat], hframe⟩

/-- Settles O37: SUB with the operands exchanged and the destination kept. -/
theorem subnWritesReverseDifference : Obligations.SubnWritesReverseDifference := by
  intro x y s
  refine ⟨decodeOfEncode (.subn x y), ?subtracts⟩
  case subtracts =>
    obtain ⟨t, hexec, hx, hflag, hframe⟩ := completes_of_setV_flag (exec_subn x y s)
    exact ⟨t, hexec, fun hne => by rw [hx hne, sub_toNat], by rw [hflag, notBorrowFlag_toNat], hframe⟩

/-! ### The flag, then the shift, which reads `Vx` again (R170, R172, R173) -/

/-- R170, written out; when `x` is `VF` the shift reads the flag. -/
theorem exec_shr (x : Reg) (s : State) : exec (.shr x) s =
    .next ((s.advance.setV VF (lowBitFlag (s.getV x))).setV x
      ((if x = VF then lowBitFlag (s.getV x) else s.getV x) >>> 1)) := by
  rw [← State.advance_getV, ← State.getV_setV]
  rfl

/-- R172, written out; when `x` is `VF` the shift reads the flag. -/
theorem exec_shl (x : Reg) (s : State) : exec (.shl x) s =
    .next ((s.advance.setV VF (highBitFlag (s.getV x))).setV x
      ((if x = VF then highBitFlag (s.getV x) else s.getV x) <<< 1)) := by
  rw [← State.advance_getV, ← State.getV_setV]
  rfl

theorem getV_VF_flag_setV (s : State) (hx : x ≠ VF) : ((s.advance.setV VF b).setV x a).getV VF = b := by
  rw [State.getV_setV_ne _ a hx.symm, State.getV_setV_self]

/-- A form that writes `VF` and then its result leaves the result there, whatever the destination is. -/
theorem completes_of_flag_setV (h : exec i s = .next ((s.advance.setV VF b).setV x a)) :
    Completes i s fun t => t.getV x = a ∧ (x ≠ VF → t.getV VF = b) ∧
      SameRegsBut [x, VF] s t ∧ t.pc = s.pc + 2 ∧ SameRest s t := by
  have regs : SameRegsBut [x, VF] s ((s.advance.setV VF b).setV x a) := fun r hr =>
    sameRegsBut_setV_setV s VF x b a r fun h => hr (List.Perm.swap x VF [] |>.mem_iff.mp h)
  exact ⟨_, h, State.getV_setV_self _ x a, getV_VF_flag_setV s, regs, rfl, sameRest_of rfl⟩

/-- Settles O38: half of `Vx` and the bit lost; a flag of 0 or 1 shifted right is 0. -/
theorem shrHalvesInPlace : Obligations.ShrHalvesInPlace := by
  intro x s
  obtain ⟨t, hexec, hx, hflag, hframe⟩ := completes_of_flag_setV (exec_shr x s)
  refine ⟨t, hexec, ?_, ?_, hframe⟩
  · intro hne
    rw [hx, if_neg hne, hflag hne, lowBitFlag_toNat, BitVec.toNat_ushiftRight, Nat.shiftRight_eq_div_pow]
    exact ⟨rfl, rfl⟩
  · rintro rfl
    apply BitVec.eq_of_toNat_eq
    rw [hx, if_pos rfl, BitVec.toNat_ushiftRight, lowBitFlag_toNat, Nat.shiftRight_eq_div_pow]
    change _ = 0
    omega

/-- Settles O39: twice `Vx` modulo 256 and the bit lost; a flag of 0 or 1 shifted left is 0 or 2. -/
theorem shlDoublesInPlace : Obligations.ShlDoublesInPlace := by
  intro x s
  obtain ⟨t, hexec, hx, hflag, hframe⟩ := completes_of_flag_setV (exec_shl x s)
  refine ⟨t, hexec, ?_, ?_, hframe⟩
  · intro hne
    rw [hx, if_neg hne, hflag hne, highBitFlag_toNat, BitVec.toNat_shiftLeft, Nat.shiftLeft_eq, Nat.mul_comm]
    exact ⟨rfl, rfl⟩
  · rintro rfl
    rw [hx, if_pos rfl, BitVec.toNat_shiftLeft, highBitFlag_toNat]
    split_ifs <;> rfl

/-! ### RND (R174) -/

/-- R174, written out. -/
theorem exec_rnd (x : Reg) (nn : Byte) (s : State) :
    exec (.rnd x nn) s = .next (s.advance.drawRandom.2.setV x (Config.randomByte s.draws &&& nn)) := rfl

/-- Settles O40: the drawn byte is used under the mask `nn` alone, which bounds it. -/
theorem rndMasksOneDraw : Obligations.RndMasksOneDraw := by
  intro x nn s
  refine ⟨decodeOfEncode (.rnd x nn), _, exec_rnd x nn s, ?bits, ?bound, rfl, ?regs, rfl, sameRest_of rfl⟩
  case bits =>
    intro k _
    rw [State.getV_setV_self, BitVec.getLsbD_and]
  case bound =>
    rw [State.getV_setV_self, BitVec.toNat_and]
    exact Nat.and_le_right
  case regs => exact sameRegsBut_setV s x _

end Sys2Proof.Machine
end

section
/-! SUPPORT. Fetch, memory and the transfers (20_memory.md, 40_tick_cycle.md, 43_index_memory.md): the transfers that
pass the bound check share the frame of one store, and those that do not share one fault. -/

namespace Sys2Proof.Machine

variable {s : State} {i : Instr}

/-! ### Memory and the fetch (R62, R67) -/

/-- Settles O22: the law of one byte's write, in Laws/Memory.lean. -/
theorem memoryReadAfterWrite : Obligations.MemoryReadAfterWrite := Memory.read_write

theorem composeWord_toNat (hi lo : Byte) : (composeWord hi lo).toNat = hi.toNat * 256 + lo.toNat := by
  rw [composeWord, BitVec.toNat_append, ← Nat.shiftLeft_add_eq_or_of_lt lo.isLt, Nat.shiftLeft_eq]

/-- Settles O8: the fetched word is the two bytes composed. -/
theorem fetchIsBigEndian : Obligations.FetchIsBigEndian := fun _ => composeWord_toNat _ _

/-! ### The phases of a tick (R120 to R125) -/

theorem step_of_halted (h : ¬ s.running) : step s = .next s := by
  rw [step, if_pos (s.halted_iff.mpr h)]

theorem step_of_ok (running : s.running) (h : fetchDecode s = .ok i) : step s = exec i s := by
  rw [step, if_neg (mt s.halted_iff.mp (not_not.mpr running)), h]

theorem step_of_error {cause : Cause} {info : Nat} (running : s.running) (h : fetchDecode s = .error (cause, info)) :
    step s = .next (faulted s cause info) := by
  rw [step, if_neg (mt s.halted_iff.mp (not_not.mpr running)), h]
  exact raise_eq cause info s

/-- Settles O9: the fetch decodes to `i`, and the tick is its execution. -/
theorem stepRunsDecodedInstruction : Obligations.StepRunsDecodedInstruction :=
  fun _ _ running fetchable hi => step_of_ok running (fetchDecode_ok fetchable hi)

/-- Settles O10: the fetch's bound check comes first, then the decoder's refusal. -/
theorem fetchAndDispatchFaults : Obligations.FetchAndDispatchFaults := fun _ running =>
  ⟨fun beyond => step_of_error running (fetchDecode_beyond beyond),
    fun fetchable illegal => step_of_error running (fetchDecode_illegal fetchable illegal)⟩

/-- Settles O11: a set latch stops the tick before the fetch. -/
theorem haltedTickChangesNothing : Obligations.HaltedTickChangesNothing := fun _ => step_of_halted

/-! ### ADDIDX and GLYPH (R192, R193) -/

/-- R192, written out. -/
theorem exec_addidx (x : Reg) (s : State) :
    exec (.addidx x) s = .next (s.advance.setI (s.i + zextByte (s.getV x))) := rfl

/-- R193, written out. -/
theorem exec_glyph (x : Reg) (s : State) : exec (.glyph x) s = .next (s.advance.setI (glyphAddr (s.getV x))) := rfl

/-- Settles O42: both forms write `I` alone; five times a byte does not wrap. -/
theorem indexArithmetic : Obligations.IndexArithmetic := by
  intro x s
  refine ⟨decodeOfEncode (.addidx x), decodeOfEncode (.glyph x), ?addidx, ?glyph⟩
  case addidx =>
    obtain ⟨t, hexec, hindex, hframe⟩ := completes_of_setI (exec_addidx x s)
    exact ⟨t, hexec, by rw [hindex, BitVec.toNat_add, zextByte_toNat], hframe⟩
  case glyph =>
    obtain ⟨t, hexec, hindex, hframe⟩ := completes_of_setI (exec_glyph x s)
    exact ⟨t, hexec, by rw [hindex, glyphAddr_toNat], hframe⟩

/-! ### The transfers within memory (R190, R194 to R196) -/

theorem exec_bcd_of_fits {x : Reg} (h : s.indexAddr 2 ≤ 4095) :
    exec (.bcd x) s = .next (s.advance.storeAtIndex (bcdDigits (s.getV x))) := checkAccess_ok _ _ (.inr h)

theorem exec_store_of_fits {x : Reg} (h : s.indexAddr x.toNat ≤ 4095) :
    exec (.store x) s = .next (s.advance.storeAtIndex (s.regsUpTo x)) := checkAccess_ok _ _ (.inr h)

theorem exec_load_of_fits {x : Reg} (h : s.indexAddr x.toNat ≤ 4095) :
    exec (.load x) s = .next (s.advance.loadFromIndex x) := checkAccess_ok _ _ (.inr h)

/-- The byte at an address that a store at `I` writes. -/
theorem read_storeAtIndex (s : State) (bs : List Byte) (k : Nat) (h : k < bs.length) :
    (s.advance.storeAtIndex bs).mem.read (s.indexAddr k) = bs[k] :=
  Memory.read_writeBytes_inside bs s.mem (s.indexAddr 0) k h

/-- A form that stores bytes at `I` writes those and no others, advances `pc` by 2 and changes nothing else. -/
theorem completes_of_store {bs : List Byte} (h : exec i s = .next (s.advance.storeAtIndex bs)) :
    Completes i s fun t =>
      (∀ (k : Nat) (hk : k < bs.length), t.mem.read (s.indexAddr k) = bs[k]) ∧
      SameMemoryOutside (s.indexAddr 0) bs.length s t ∧
      SameRegsBut [] s t ∧ t.pc = s.pc + 2 ∧ SameRest s { t with mem := s.mem } :=
  ⟨_, h, read_storeAtIndex s bs, fun b hb => Memory.read_writeBytes_outside bs s.mem _ b hb,
    fun _ _ => rfl, rfl, sameRest_of rfl⟩

/-- Settles O43: the three bytes stored are the digits. -/
theorem bcdStoresDigits : Obligations.BcdStoresDigits := by
  intro x s
  refine ⟨decodeOfEncode (.bcd x), fun fits => ?_⟩
  obtain ⟨t, hexec, hdigits, hframe⟩ := completes_of_store (exec_bcd_of_fits (x := x) fits)
  refine ⟨t, hexec, ?hundreds, ?tens, ?ones, hframe⟩
  case hundreds =>
    rw [hdigits 0 (by simp)]
    exact BitVec.toNat_udiv
  case tens =>
    rw [hdigits 1 (by simp)]
    exact BitVec.toNat_umod.trans (congrArg (· % 10) BitVec.toNat_udiv)
  case ones =>
    rw [hdigits 2 (by simp)]
    exact BitVec.toNat_umod

/-- Settles O44: the bytes stored are the registers up to `x`. -/
theorem storeCopiesRegisters : Obligations.StoreCopiesRegisters := by
  intro x s
  refine ⟨decodeOfEncode (.store x), fun fits => ?_⟩
  obtain ⟨t, hexec, hbytes, hframe⟩ := completes_of_store (exec_store_of_fits (x := x) fits)
  rw [State.regsUpTo_length] at hframe
  refine ⟨t, hexec, fun r hr => ?_, hframe⟩
  have listed : r.toNat < (s.regsUpTo x).length := by
    rw [State.regsUpTo_length]
    omega
  rw [hbytes r.toNat listed, State.regsUpTo_getElem]

/-- Settles O45: LOAD's register file, by whether the register is above `x`. -/
theorem loadCopiesMemory : Obligations.LoadCopiesMemory := by
  intro x s
  refine ⟨decodeOfEncode (.load x), fun fits => ⟨_, exec_load_of_fits fits, ?loaded, ?kept, rfl, sameRest_of rfl⟩⟩
  case loaded =>
    intro r hr
    rw [State.loadFromIndex_getV, if_pos hr]
    rfl
  case kept =>
    intro r hr
    rw [State.loadFromIndex_getV, if_neg (by omega), State.advance_getV]

/-! ### The transfers that reach beyond memory (R245) -/

theorem exec_bcd_beyond {x : Reg} (h : 4095 < s.indexAddr 2) :
    exec (.bcd x) s = .next (faulted s .memoryOutOfBounds (s.indexAddr 2)) :=
  checkAccess_raises s _ (Nat.succ_ne_zero 2) h

theorem exec_store_beyond {x : Reg} (h : 4095 < s.indexAddr x.toNat) :
    exec (.store x) s = .next (faulted s .memoryOutOfBounds (s.indexAddr x.toNat)) :=
  checkAccess_raises s _ (Nat.succ_ne_zero x.toNat) h

theorem exec_load_beyond {x : Reg} (h : 4095 < s.indexAddr x.toNat) :
    exec (.load x) s = .next (faulted s .memoryOutOfBounds (s.indexAddr x.toNat)) :=
  checkAccess_raises s _ (Nat.succ_ne_zero x.toNat) h

theorem exec_drw_beyond {x y : Reg} {n : Nibble} (hn : n.toNat ≠ 0) (h : 4095 < s.indexAddr (n.toNat - 1)) :
    exec (.drw x y n) s = .next (faulted s .memoryOutOfBounds (s.indexAddr (n.toNat - 1))) :=
  checkAccess_raises s _ hn h

/-- Settles O46: each form's highest address is `I` plus the number of its bytes less 1. -/
theorem accessBeyondMemoryFaults : Obligations.AccessBeyondMemoryFaults := by
  intro x y n s
  refine ⟨exec_bcd_beyond, fun h => ⟨exec_store_beyond h, exec_load_beyond h⟩, fun hn h => ?drw⟩
  case drw =>
    have highest : s.indexAddr (n.toNat - 1) = s.i.toNat + n.toNat - 1 := (Nat.add_sub_assoc hn _).symm
    rw [exec_drw_beyond (by omega) (by omega), highest]

/-! ### Transfers after one another (R72, R195, R196) -/

/-- Settles O47: LOAD reads the bytes that STORE wrote, at the same addresses. -/
theorem loadUndoesStore : Obligations.LoadUndoesStore := by
  intro x s t u w fits hstore hmem hindex hload r hr
  obtain ⟨-, hstored⟩ := storeCopiesRegisters x s
  obtain ⟨t', ht, stored, -⟩ := hstored fits
  cases hstore.symm.trans ht
  have sameAddr : ∀ k, u.indexAddr k = s.indexAddr k := fun k => by rw [State.indexAddr, hindex, State.indexAddr]
  obtain ⟨-, hloaded⟩ := loadCopiesMemory x u
  obtain ⟨w', hw, loaded, -⟩ := hloaded (by rwa [sameAddr])
  cases hload.symm.trans hw
  rw [loaded r hr, hmem, sameAddr, stored r hr]

/-- Settles O48: the next fetch is at `I`, where STORE put `V[0]` and `V[1]`. -/
theorem fetchSeesStores : Obligations.FetchSeesStores := by
  intro x s t hx hindex fits hstore
  obtain ⟨-, hstored⟩ := storeCopiesRegisters x s
  obtain ⟨t', ht, stored, -, -, hpc, -⟩ := hstored fits
  cases hstore.symm.trans ht
  have atIndex : t.pc.toNat = s.i.toNat := by rw [hpc, hindex]
  have first : t.mem.read t.pc.toNat = s.getV 0 := by
    rw [atIndex]
    exact stored 0 (Nat.zero_le _)
  have second : t.mem.read (t.pc.toNat + 1) = s.getV 1 := by
    rw [atIndex]
    exact stored 1 hx
  rw [fetchIsBigEndian, first, second]

end Sys2Proof.Machine
end

section
/-! SUPPORT. Drawing a sprite (44_display.md R212): the state `drawn` that DRW leaves in bounds, cell by cell, and the
same sprite drawn again. -/

namespace Sys2Proof.Machine

variable {s : State} {x y : Reg} {n : Nibble}

theorem exec_drw_of_fits (h : n.toNat = 0 ∨ s.indexAddr (n.toNat - 1) ≤ 4095) :
    exec (.drw x y n) s = .next (drawn s x y n) := checkAccess_ok s _ h

/-- A cell is flipped when it lies under the sprite, and kept otherwise. -/
theorem drawn_lit (s : State) (x y : Reg) (n : Nibble) (p : Pixel) :
    (drawn s x y n).fb.lit p = (s.fb.lit p ^^ decide (p ∈ s.spritePixels x y n)) :=
  drawPixels_lit s.fb _ (s.spritePixels_nodup x y n) p

theorem drawn_lit_of_under {p : Pixel} (h : UnderSprite s x y n p) : (drawn s x y n).fb.lit p = !s.fb.lit p := by
  rw [drawn_lit, decide_eq_true ((s.mem_spritePixels x y n p).mpr h), Bool.xor_true]

theorem drawn_lit_of_not_under {p : Pixel} (h : ¬ UnderSprite s x y n p) :
    (drawn s x y n).fb.lit p = s.fb.lit p := by
  rw [drawn_lit, decide_eq_false (mt (s.mem_spritePixels x y n p).mp h), Bool.xor_false]

theorem drawn_VF (s : State) (x y : Reg) (n : Nibble) :
    (drawn s x y n).getV VF = flag ((s.spritePixels x y n).any fun p => s.fb.lit p) := by
  rw [drawn, State.getV_setV_self, drawPixels_hit s.fb _ (s.spritePixels_nodup x y n), collisionFlag]

theorem drawn_VF_of_hit (h : ∃ p, UnderSprite s x y n p ∧ s.fb.lit p = true) : (drawn s x y n).getV VF = 1 := by
  obtain ⟨p, under, lit⟩ := h
  have hit : ((s.spritePixels x y n).any fun p => s.fb.lit p) = true :=
    List.any_eq_true.mpr ⟨p, (s.mem_spritePixels x y n p).mpr under, lit⟩
  rw [drawn_VF, hit]
  rfl

theorem drawn_VF_of_miss (h : ∀ p, UnderSprite s x y n p → s.fb.lit p = false) : (drawn s x y n).getV VF = 0 := by
  have miss : ((s.spritePixels x y n).any fun p => s.fb.lit p) = false :=
    List.any_eq_false.mpr fun p hp => by simp [h p ((s.mem_spritePixels x y n p).mp hp)]
  rw [drawn_VF, miss]
  rfl

/-- DRW writes one register, the flag. -/
theorem drawn_getV_of_ne {r : Reg} (h : r ≠ VF) : (drawn s x y n).getV r = s.getV r := State.getV_setV_ne _ _ h

/-- Settles O50: the sprite's cells are distinct, so each is flipped once and is lit before as it was at its toggle. -/
theorem drwXorsSprite : Obligations.DrwXorsSprite := by
  intro x y n s
  refine ⟨decodeOfEncode (.drw x y n), fun fits => ⟨_, exec_drw_of_fits fits, ?cells, drawn_VF_of_hit, drawn_VF_of_miss,
    ?regs, rfl, sameRest_of rfl⟩⟩
  case cells =>
    intro p
    by_cases under : UnderSprite s x y n p
    · exact iff_of_true (drawn_lit_of_under under ▸ Bool.not_ne_self _) under
    · exact iff_of_false (not_not.mpr (drawn_lit_of_not_under under)) under
  case regs =>
    intro r hr
    exact drawn_getV_of_ne (by simpa using hr)

/-! ### The same sprite again -/

/-- A position outside `VF` stands for the same cells after the draw: memory and `I` are as before. -/
theorem underSprite_drawn (hx : x ≠ VF) (hy : y ≠ VF) (p : Pixel) :
    UnderSprite (drawn s x y n) x y n p ↔ UnderSprite s x y n p := by
  rw [UnderSprite, drawn_getV_of_ne hx, drawn_getV_of_ne hy]
  rfl

/-- Settles O51: the second draw flips the cells that the first one flipped, and those are lit by then when they were
unlit before. -/
theorem drwTwiceRestoresDisplay : Obligations.DrwTwiceRestoresDisplay := by
  intro x y n s t u hx hy fits hfirst hsecond
  rw [exec_drw_of_fits fits] at hfirst
  cases hfirst
  have fits' : n.toNat = 0 ∨ (drawn s x y n).indexAddr (n.toNat - 1) ≤ 4095 := fits
  rw [exec_drw_of_fits fits'] at hsecond
  cases hsecond
  have same := underSprite_drawn (s := s) (n := n) hx hy
  refine ⟨fun p => ?restored, fun unlit => ⟨fun hit => ?someBit, fun bit => ?collides⟩⟩
  case restored =>
    by_cases under : UnderSprite s x y n p
    · rw [drawn_lit_of_under ((same p).mpr under), drawn_lit_of_under under, Bool.not_not]
    · rw [drawn_lit_of_not_under (mt (same p).mp under), drawn_lit_of_not_under under]
  case someBit =>
    by_contra none
    have miss := drawn_VF_of_miss (s := drawn s x y n) fun p under => absurd ⟨p, (same p).mp under⟩ none
    exact absurd (hit.symm.trans miss) (by decide)
  case collides =>
    obtain ⟨p, under⟩ := bit
    have lit : (drawn s x y n).fb.lit p = true := by rw [drawn_lit_of_under under, unlit p under, Bool.not_false]
    exact drawn_VF_of_hit ⟨p, (same p).mpr under, lit⟩

end Sys2Proof.Machine
end

section
/-! SUPPORT. The host's operations and queries (60_exceptions.md, 70_reset_and_hazards.md): what each operation leaves,
and from `load`'s the first tick of an image. -/

namespace Sys2Proof.Machine

variable {s t : State}

/-! ### What an operation leaves -/

theorem after_tick (h : step s = .next t) : Operation.tick.after s = t := Operation.after_of_next (op := .tick) h

theorem after_load_of_fits {bytes : List Byte} (h : bytes.length ≤ 3584) :
    (Operation.load bytes).after s = { s with mem := s.mem.writeBytes 512 bytes } :=
  Operation.after_of_next (op := .load bytes) (loadImage_of_fits h)

theorem after_load_of_long {bytes : List Byte} (h : 3584 < bytes.length) : (Operation.load bytes).after s = s :=
  Operation.after_of_refused (op := .load bytes) (loadImage_of_long h)

/-- Settles O56: the keys are a vector of which `key_event` writes one entry. -/
theorem keyEventSetsOneKey : Obligations.KeyEventSetsOneKey := by
  intro k pressed s
  refine ⟨fun j => ?_, rfl⟩
  have entry : (keyEvent k pressed s).key.get j = if k.toNat = j.val then pressed else s.key.get j :=
    Vector.getElem_set k.isLt j.isLt
  rw [entry]
  simp only [eq_comm]

/-- Settles O57: an image that fits is a run of bytes written at 512. -/
theorem loadCopiesImage : Obligations.LoadCopiesImage := by
  intro bytes s
  refine ⟨fun fits => ⟨_, loadImage_of_fits fits, ?inside, ?outside, rfl⟩, fun long => ⟨?refused, ?stays⟩⟩
  case inside => exact fun j hj => Memory.read_writeBytes_inside bytes s.mem 512 j hj
  case outside => exact fun b hb => Memory.read_writeBytes_outside bytes s.mem 512 b hb
  case refused => exact loadImage_of_long long
  case stays => exact after_load_of_long long

/-! ### Reset and the first tick (R37, R280, R285) -/

theorem resetCore_getV (s : State) (r : Reg) : (resetCore s).getV r = 0 := Vector.getElem_replicate r.isLt

/-- Settles O58: every field is the reset state's, with the machine's own glyph table, and the draws stand. -/
theorem resetRestoresEverything : Obligations.ResetRestoresEverything := by
  intro s
  refine ⟨resetCore_getV s, rfl, rfl, ?stack, rfl, rfl, rfl, ?keys, FrameBuffer.lit_clear, rfl, ?glyphs, ?zeros,
    rfl, rfl⟩
  case stack => exact fun k => Vector.getElem_replicate k.isLt
  case keys => exact fun k => Vector.getElem_replicate k.isLt
  case glyphs => exact Memory.read_reset_glyph s.mem.glyphs
  case zeros => exact Memory.read_reset_zero s.mem.glyphs

/-- Settles O59: reset leaves a running machine with `pc` at 512, where `load` puts the image's first word. -/
theorem bootRunsTheImage : Obligations.BootRunsTheImage := by
  intro hi lo rest s i fits hdecode
  have loaded : runOperations [.reset, .load (hi :: lo :: rest)] s =
      { resetCore s with mem := (resetCore s).mem.writeBytes 512 (hi :: lo :: rest) } :=
    after_load_of_fits (s := resetCore s) (by simp only [List.length_cons]; omega)
  rw [loaded]
  refine stepRunsDecodedInstruction _ i rfl (show 512 ≤ 4094 by decide) ?_
  have first := Memory.read_writeBytes_inside (hi :: lo :: rest) (resetCore s).mem 512 0 (by simp)
  have second := Memory.read_writeBytes_inside (hi :: lo :: rest) (resetCore s).mem 512 1 (by simp)
  change decode (composeWord (Memory.read _ (512 + 0)) (Memory.read _ (512 + 1))) = some i
  rw [first, second]
  exact hdecode

/-! ### The queries (R33, R255 to R258) -/

theorem Pixel.ofIndex_index (p : Pixel) (h : p.index < 2048) : Pixel.ofIndex ⟨p.index, h⟩ = p := by
  obtain ⟨⟨col, hcol⟩, ⟨row, hrow⟩⟩ := p
  have hc : (col + 64 * row) % 64 = col := by omega
  have hr : (col + 64 * row) / 64 % 32 = row := by omega
  simp only [Pixel.ofIndex, Pixel.index, Fin.ofNat, hc, hr]

/-- Settles O60: place `x + 64*y` of the snapshot is the cell that has this number; the other two queries are fields. -/
theorem queriesShowTheState : Obligations.QueriesShowTheState := by
  intro s p h
  have cell : (displaySnapshot s)[p.index] = s.fb.lit (Pixel.ofIndex ⟨p.index, h⟩) := Vector.getElem_ofFn h
  exact ⟨cell.trans (congrArg s.fb.lit (p.ofIndex_index h)), rfl, rfl⟩

end Sys2Proof.Machine
end

section
/-! SUPPORT. Whole-machine rules (10_state.md R22, R38, 60_exceptions.md R240 to R249), from one inversion of `exec`: an
executed form raises one of the faults of R240 or runs to its end, and `Ran` says what it can have changed by then. -/

namespace Sys2Proof.Machine

variable {s t : State} {i : Instr}

/-! ### Everything an executed form can do -/

/-- R240's faults of the execute phase: the form, the condition on the state before the tick, the cause and `info`. -/
inductive Faults (s : State) : Instr → Cause → Nat → Prop
  | ret (empty : s.sp.val = 0) : Faults s .ret .stackUnderflow (encode .ret).toNat
  | call (nnn : Addr) (full : s.sp.val = 16) : Faults s (.call nnn) .stackOverflow (encode (.call nnn)).toNat
  | bcd (x : Reg) (beyond : 4095 < s.indexAddr 2) : Faults s (.bcd x) .memoryOutOfBounds (s.indexAddr 2)
  | store (x : Reg) (beyond : 4095 < s.indexAddr x.toNat) :
    Faults s (.store x) .memoryOutOfBounds (s.indexAddr x.toNat)
  | load (x : Reg) (beyond : 4095 < s.indexAddr x.toNat) :
    Faults s (.load x) .memoryOutOfBounds (s.indexAddr x.toNat)
  | drw (x y : Reg) (n : Nibble) (rows : n.toNat ≠ 0) (beyond : 4095 < s.indexAddr (n.toNat - 1)) :
    Faults s (.drw x y n) .memoryOutOfBounds (s.indexAddr (n.toNat - 1))
  | skp (x : Reg) (beyond : 15 < (s.getV x).toNat) : Faults s (.skp x) .keyIndexOutOfRange (s.getV x).toNat
  | sknp (x : Reg) (beyond : 15 < (s.getV x).toNat) : Faults s (.sknp x) .keyIndexOutOfRange (s.getV x).toNat

/-- Where `pc` can be after a form that has run to its end (R24, R122, R140 to R144, R223). -/
inductive NextPc (s : State) : Word → Prop
  | next : NextPc s (s.pc + 2)
  | skip : NextPc s (s.pc + 4)
  | wait : NextPc s s.pc
  | jump (nnn : Addr) : NextPc s (zextAddr nnn)
  | jumpBy (b : Byte) (nnn : Addr) : NextPc s (zextByte b + zextAddr nnn)
  | ret (k : Fin 16) (pending : k.val < s.sp.val) : NextPc s (s.stack.get k)

/-- R38: the forms whose destination is `V[x]`. -/
abbrev regForms : List String :=
  ["LDI", "ADDI", "MOV", "OR", "AND", "XOR", "ADD", "SUB", "SHR", "SUBN", "SHL", "RND", "GETDT", "WAITK", "LOAD"]

/-- R22: the forms that write the flag. -/
abbrev flagForms : List String := ["ADD", "SUB", "SHR", "SUBN", "SHL", "DRW"]

/-- R38: the forms that write `pc` on top of the fetch. -/
abbrev pcForms : List String :=
  ["RET", "JP", "CALL", "JPV0", "SEI", "SNEI", "SER", "SNER", "SKP", "SKNP", "WAITK"]

/-- R38: the registers that a form writes: its destination, the flag, or LOAD's `V[0]` to `V[x]`. -/
def WritesReg (i : Instr) (r : Reg) : Prop :=
  ((.x, r.toNat) ∈ i.operands ∧ i.mnemonic ∈ regForms) ∨ (r = VF ∧ i.mnemonic ∈ flagForms) ∨
  ∃ x, i = .load x ∧ r.toNat ≤ x.toNat

/-- What a form that raises no fault has changed at its end, by R38's column "written by". Each field's default is that
the part is as before (`pc` 2 ahead), so that a form's case names the parts it writes. -/
structure Ran (i : Instr) (s t : State) : Prop where
  memory : t.mem = s.mem ∨ i.mnemonic ∈ ["BCD", "STORE"] := by exact .inl rfl
  glyphs : t.mem.glyphs = s.mem.glyphs := by rfl
  regs : ∀ r, t.getV r = s.getV r ∨ WritesReg i r := by exact fun _ => .inl rfl
  index : t.i = s.i ∨ i.mnemonic ∈ ["LDIDX", "ADDIDX", "GLYPH"] := by exact .inl rfl
  pc : t.pc = s.pc + 2 ∨ i.mnemonic ∈ pcForms := by exact .inl rfl
  target : NextPc s t.pc := by exact .next
  stack : t.stack = s.stack ∨ i.mnemonic = "CALL" := by exact .inl rfl
  sp : t.sp = s.sp ∨ i.mnemonic ∈ ["CALL", "RET"] := by exact .inl rfl
  dt : t.dt = s.dt ∨ i.mnemonic = "SETDT" := by exact .inl rfl
  st : t.st = s.st ∨ i.mnemonic = "SETST" := by exact .inl rfl
  key : t.key = s.key := by rfl
  fb : t.fb = s.fb ∨ i.mnemonic ∈ ["CLS", "DRW"] := by exact .inl rfl
  fault : t.fault = s.fault := by rfl
  draws : t.draws = s.draws ∨ i.mnemonic = "RND" := by exact .inl rfl

/-! The shapes that several forms end in. -/

theorem ran_of_skip (c : Bool) (hi : i.mnemonic ∈ pcForms) : Ran i s (s.advance.skipIf c) := by
  have target : NextPc s (s.advance.skipIf c).pc := by
    rw [State.advance_skipIf_pc]
    split
    · exact .skip
    · exact .next
  cases c <;> exact { pc := .inr hi, target := target }

/-- A form that writes registers alone, each of them one that it may write. -/
theorem ran_of_regs (ht : t = { s.advance with v := t.v }) (hregs : ∀ r, t.getV r = s.getV r ∨ WritesReg i r) :
    Ran i s t := by
  rw [ht] at hregs ⊢
  exact { regs := hregs }

theorem regs_setV {x : Reg} (b : Byte) (ht : ∀ r, t.getV r = s.getV r ∨ WritesReg i r) (hx : WritesReg i x) (r : Reg) :
    (t.setV x b).getV r = s.getV r ∨ WritesReg i r := by
  by_cases hr : r = x
  · exact .inr (hr ▸ hx)
  · exact (ht r).imp_left (State.getV_setV_ne t b hr).trans

theorem ran_of_setV {x : Reg} (b : Byte) (hx : WritesReg i x) : Ran i s (s.advance.setV x b) :=
  ran_of_regs rfl (regs_setV b (fun _ => .inl rfl) hx)

theorem ran_of_setV_setV {p q : Reg} (a b : Byte) (hp : WritesReg i p) (hq : WritesReg i q) :
    Ran i s ((s.advance.setV p a).setV q b) :=
  ran_of_regs rfl (regs_setV b (regs_setV a (fun _ => .inl rfl) hp) hq)

theorem writesReg_x {x : Reg} {ops : List (Slot × Nat)} (hops : i.operands = (.x, x.toNat) :: ops)
    (hi : i.mnemonic ∈ regForms) : WritesReg i x := .inl ⟨hops ▸ List.mem_cons_self, hi⟩

theorem writesReg_VF (hi : i.mnemonic ∈ flagForms) : WritesReg i VF := .inr (.inl ⟨rfl, hi⟩)

/-- Everything an executed form can do: it raises a fault, or it runs to its end. That a mnemonic is in a list is
decided by evaluation. -/
theorem exec_cases (h : exec i s = .next t) :
    (∃ cause info, Faults s i cause info ∧ t = faulted s cause info) ∨ Ran i s t := by
  cases i
  -- the forms with one ending
  case nop => cases h; exact .inr {}
  case cls => cases h; exact .inr { fb := .inr (of_decide_eq_true rfl) }
  case jp nnn => cases h; exact .inr { pc := .inr (of_decide_eq_true rfl), target := .jump nnn }
  case jpv0 nnn => cases h; exact .inr { pc := .inr (of_decide_eq_true rfl), target := .jumpBy _ nnn }
  case sei | snei | ser | sner => cases h; exact .inr (ran_of_skip _ (of_decide_eq_true rfl))
  case ldi | addi | mov | or | and | xor | getdt =>
    cases h
    exact .inr (ran_of_setV _ (writesReg_x rfl (of_decide_eq_true rfl)))
  case add | sub | subn =>
    cases h
    exact .inr (ran_of_setV_setV _ _ (writesReg_x rfl (of_decide_eq_true rfl)) (writesReg_VF (of_decide_eq_true rfl)))
  case shr | shl =>
    cases h
    exact .inr (ran_of_setV_setV _ _ (writesReg_VF (of_decide_eq_true rfl)) (writesReg_x rfl (of_decide_eq_true rfl)))
  case rnd =>
    cases h
    exact .inr { regs := regs_setV _ (fun _ => .inl rfl) (writesReg_x rfl (of_decide_eq_true rfl)), draws := .inr rfl }
  case setdt => cases h; exact .inr { dt := .inr rfl }
  case setst => cases h; exact .inr { st := .inr rfl }
  case ldidx | addidx | glyph => cases h; exact .inr { index := .inr (of_decide_eq_true rfl) }
  -- the forms that may wait or fault
  case waitk =>
    obtain ⟨k, -, -, rfl⟩ | ⟨-, rfl⟩ := exec_waitk_cases h
    · exact .inr (ran_of_setV _ (writesReg_x rfl (of_decide_eq_true rfl)))
    · exact .inr { pc := .inr (of_decide_eq_true rfl), target := .wait }
  case ret =>
    obtain ⟨pending, inside, rfl⟩ | ⟨empty, rfl⟩ := exec_ret_cases h
    · exact .inr { pc := .inr (of_decide_eq_true rfl), target := .ret ⟨_, inside⟩ (Nat.sub_one_lt pending),
                   sp := .inr (of_decide_eq_true rfl) }
    · exact .inl ⟨_, _, .ret empty, rfl⟩
  case call nnn =>
    obtain ⟨room, rfl⟩ | ⟨full, rfl⟩ := exec_call_cases h
    · exact .inr { pc := .inr (of_decide_eq_true rfl), target := .jump nnn, stack := .inr rfl,
                   sp := .inr (of_decide_eq_true rfl) }
    · exact .inl ⟨_, _, .call nnn full, rfl⟩
  case skp x =>
    obtain ⟨k, -, rfl⟩ | ⟨beyond, rfl⟩ := exec_skp_cases h
    · exact .inr (ran_of_skip _ (of_decide_eq_true rfl))
    · exact .inl ⟨_, _, .skp x beyond, rfl⟩
  case sknp x =>
    obtain ⟨k, -, rfl⟩ | ⟨beyond, rfl⟩ := exec_sknp_cases h
    · exact .inr (ran_of_skip _ (of_decide_eq_true rfl))
    · exact .inl ⟨_, _, .sknp x beyond, rfl⟩
  case bcd x =>
    obtain ⟨-, rfl⟩ | ⟨beyond, rfl⟩ := exec_bcd_cases h
    · exact .inr { memory := .inr (of_decide_eq_true rfl), glyphs := Memory.writeBytes_glyphs .. }
    · exact .inl ⟨_, _, .bcd x beyond, rfl⟩
  case store x =>
    obtain ⟨-, rfl⟩ | ⟨beyond, rfl⟩ := exec_store_cases h
    · exact .inr { memory := .inr (of_decide_eq_true rfl), glyphs := Memory.writeBytes_glyphs .. }
    · exact .inl ⟨_, _, .store x beyond, rfl⟩
  case load x =>
    obtain ⟨-, rfl⟩ | ⟨beyond, rfl⟩ := exec_load_cases h
    · refine .inr (ran_of_regs rfl fun r => ?_)
      rw [State.loadFromIndex_getV]
      split_ifs with hr
      · exact .inr (.inr (.inr ⟨x, rfl, hr⟩))
      · exact .inl rfl
    · exact .inl ⟨_, _, .load x beyond, rfl⟩
  case drw x y n =>
    obtain ⟨-, rfl⟩ | ⟨rows, beyond, rfl⟩ := exec_drw_cases h
    · exact .inr { fb := .inr (of_decide_eq_true rfl),
                   regs := regs_setV _ (fun _ => .inl rfl) (writesReg_VF (of_decide_eq_true rfl)) }
    · exact .inl ⟨_, _, .drw x y n rows beyond, rfl⟩

/-! ### A tick always ends (R127) -/

theorem checkAccess_next (len : Nat) (s done : State) : ∃ t, checkAccess len s done = .next t := by
  obtain ⟨-, h⟩ | ⟨-, -, h⟩ := checkAccess_cases len s done <;> exact ⟨_, h⟩

theorem exec_next (i : Instr) (s : State) : ∃ t, exec i s = .next t := by
  cases i
  case bcd | store | load | drw => exact checkAccess_next _ _ _
  case ret =>
    by_cases empty : s.sp.val = 0
    · exact ⟨_, exec_ret_of_empty empty⟩
    · exact ⟨_, exec_ret_of_pending ⟨s.sp.val - 1, by omega⟩ (Nat.succ_pred empty).symm⟩
  case call nnn =>
    by_cases room : s.sp.val < 16
    · exact ⟨_, exec_call_of_room nnn room⟩
    · exact ⟨_, exec_call_of_full nnn (by omega)⟩
  case skp x =>
    by_cases key : (s.getV x).toNat < 16
    · exact ⟨_, exec_skp_of_key ⟨_, key⟩ rfl⟩
    · exact ⟨_, exec_skp_beyond (by omega)⟩
  case sknp x =>
    by_cases key : (s.getV x).toNat < 16
    · exact ⟨_, exec_sknp_of_key ⟨_, key⟩ rfl⟩
    · exact ⟨_, exec_sknp_beyond (by omega)⟩
  case waitk x =>
    cases hkey : leastPressed s.key with
    | none => exact ⟨_, exec_waitk_of_none ((leastPressed_eq_none _).mp hkey)⟩
    | some k =>
      obtain ⟨hk, down, least⟩ := (leastPressed_eq_some _ _).mp hkey
      exact ⟨_, exec_waitk_of_least ⟨k, hk⟩ down least⟩
  all_goals exact ⟨_, rfl⟩

/-- Settles O12: a halted tick, a fault of the fetch or of the decoder, and an executed form each have a next state. -/
theorem everyTickHasANextState : Obligations.EveryTickHasANextState := by
  intro s
  by_cases running : s.running
  · cases hfetch : fetchDecode s with
    | error e => exact ⟨_, step_of_error running hfetch⟩
    | ok i =>
      rw [step_of_ok running hfetch]
      exact exec_next i s
  · exact ⟨s, step_of_halted running⟩

/-! ### Which faults, and their latch (R240, R247 to R249) -/

theorem exec_fault_cases (h : exec i s = .next t) :
    t.fault = s.fault ∨ ∃ cause info, Faults s i cause info ∧ t = faulted s cause info :=
  (exec_cases h).symm.imp_left Ran.fault

/-- A running machine that is halted after a form has raised one of the form's faults. -/
theorem faults_of_latched {f : FaultRecord} (running : s.running) (h : exec i s = .next t) (hf : t.fault = some f) :
    ∃ cause info, Faults s i cause info ∧ t = faulted s cause info := by
  obtain kept | raised := exec_fault_cases h
  · rw [kept, running] at hf
    cases hf
  · exact raised

/-- Settles O13: every fault of a tick is taken by `faulted`, which writes the latch alone. -/
theorem faultsArePrecise : Obligations.FaultsArePrecise := by
  intro s t f running hstep hf
  have raised : Raised s t := by
    obtain ⟨halted, -⟩ | ⟨-, -, rfl⟩ | ⟨-, -, -, rfl⟩ | ⟨i, -, -, -, hexec⟩ := step_cases hstep
    · exact absurd running halted
    · exact ⟨_, _, rfl⟩
    · exact ⟨_, _, rfl⟩
    · obtain ⟨cause, info, -, raised⟩ := faults_of_latched running hexec hf
      exact ⟨cause, info, raised⟩
  obtain ⟨cause, info, rfl⟩ := raised
  cases hf
  exact ⟨rfl, rfl⟩

/-- Settles O14: the eight rows of `Faults`. -/
theorem faultsByForm : Obligations.FaultsByForm := by
  intro i s t f running hexec hf
  obtain ⟨cause, info, faults, rfl⟩ := faults_of_latched running hexec hf
  cases hf
  cases faults
  case ret empty => exact ⟨rfl, empty, rfl⟩
  case call nnn full => exact ⟨nnn, rfl, full, rfl⟩
  case bcd x beyond => exact ⟨beyond, .inl ⟨x, rfl, rfl⟩⟩
  case store x beyond => exact ⟨beyond, .inr (.inl ⟨x, .inl rfl, rfl⟩)⟩
  case load x beyond => exact ⟨beyond, .inr (.inl ⟨x, .inr rfl, rfl⟩)⟩
  case drw x y n rows beyond =>
    have positive : 0 < n.toNat := Nat.pos_of_ne_zero rows
    exact ⟨beyond, .inr (.inr ⟨x, y, n, rfl, positive, (Nat.add_sub_assoc positive _).symm⟩)⟩
  case skp x beyond => exact ⟨x, .inl rfl, beyond, rfl⟩
  case sknp x beyond => exact ⟨x, .inr rfl, beyond, rfl⟩

/-- Settles O15: a tick of a halted machine does nothing, and no other operation but reset writes the latch. -/
theorem onlyResetClearsTheLatch : Obligations.OnlyResetClearsTheLatch := by
  intro op s f hf hop
  cases op with
  | reset => exact absurd rfl hop
  | load bytes =>
    by_cases fits : bytes.length ≤ 3584
    · rw [after_load_of_fits fits]
      exact hf
    · rw [after_load_of_long (by omega)]
      exact hf
  | tick =>
    have halted : ¬ s.running := fun running => by cases running.symm.trans hf
    rw [after_tick (step_of_halted halted)]
    exact hf
  | tickTimers => exact hf
  | keyEvent => exact hf

/-! ### Who writes what (R22, R38) -/

theorem Faults.mnemonic_mem {cause : Cause} {info : Nat} (h : Faults s i cause info) :
    i.mnemonic ∈ ["RET", "CALL", "BCD", "STORE", "LOAD", "DRW", "SKP", "SKNP"] := by
  cases h <;> exact of_decide_eq_true rfl

/-- Settles O19: a raised fault changes the latch alone, and a form that runs to its end is bounded by `Ran`. -/
theorem onlyTheseFormsWrite : Obligations.OnlyTheseFormsWrite := by
  intro i s t h
  obtain ⟨cause, info, faults, rfl⟩ | ran := exec_cases h
  · have raised : Raised s (faulted s cause info) := ⟨cause, info, rfl⟩
    exact ⟨fun h => absurd (fun _ => rfl) h, fun _ h => absurd rfl h, fun h => absurd rfl h, fun _ => .inl raised,
      fun ⟨_, h⟩ => absurd rfl h, fun h => absurd rfl h, fun h => absurd rfl h, fun h => absurd rfl h, fun _ => rfl,
      fun h => absurd (fun _ => rfl) h, fun _ => ⟨raised, faults.mnemonic_mem⟩, rfl, fun h => absurd rfl h⟩
  · refine ⟨fun h => ran.memory.resolve_left fun e => h fun a => by rw [e], fun r h => (ran.regs r).resolve_left h,
      ran.index.resolve_left, fun h => .inr (ran.pc.resolve_left h),
      fun ⟨k, h⟩ => ran.stack.resolve_left fun e => h (by rw [e]), ran.sp.resolve_left, ran.dt.resolve_left,
      ran.st.resolve_left, fun k => by rw [ran.key], fun h => ran.fb.resolve_left fun e => h fun p => by rw [e],
      fun h => absurd ran.fault h, ran.glyphs, ran.draws.resolve_left⟩

/-! ### The flag's writers leave a bit (R22) -/

theorem flag_bit (c : Bool) : flag c = 0 ∨ flag c = 1 := by cases c <;> decide

theorem bit_of_toNat {b : Byte} (h : b.toNat = 0 ∨ b.toNat = 1) : b = 0 ∨ b = 1 :=
  h.imp BitVec.eq_of_toNat_eq BitVec.eq_of_toNat_eq

theorem lowBitFlag_bit (a : Byte) : lowBitFlag a = 0 ∨ lowBitFlag a = 1 :=
  bit_of_toNat (lowBitFlag_toNat a ▸ Nat.mod_two_eq_zero_or_one a.toNat)

theorem highBitFlag_bit (a : Byte) : highBitFlag a = 0 ∨ highBitFlag a = 1 := by
  apply bit_of_toNat
  rw [highBitFlag_toNat]
  split_ifs
  · exact .inr rfl
  · exact .inl rfl

/-- What `VF` holds after a form that writes it as a flag: the shifts write it before their result, so that with
`x = 15` it holds the result. -/
theorem exec_VF_of_flagForm (h : exec i s = .next t) (hi : i.mnemonic ∈ flagForms) :
    t.getV VF = s.getV VF ∨ (t.getV VF = 0 ∨ t.getV VF = 1) ∨ i.operands = [(.x, VF.toNat)] := by
  cases i
  case add x y | sub x y | subn x y =>
    cases h
    rw [State.getV_setV_self]
    exact .inr (.inl (flag_bit _))
  case shr x =>
    cases h
    by_cases hx : x = VF
    · exact .inr (.inr (hx ▸ rfl))
    · rw [getV_VF_flag_setV s hx]
      exact .inr (.inl (lowBitFlag_bit _))
  case shl x =>
    cases h
    by_cases hx : x = VF
    · exact .inr (.inr (hx ▸ rfl))
    · rw [getV_VF_flag_setV s hx]
      exact .inr (.inl (highBitFlag_bit _))
  case drw x y n =>
    obtain ⟨-, rfl⟩ | ⟨-, -, rfl⟩ := exec_drw_cases h
    · rw [drawn_VF]
      exact .inr (.inl (flag_bit _))
    · exact .inl rfl
  all_goals exact absurd hi (of_decide_eq_false rfl)

theorem form_of_flagForms (hi : i.mnemonic ∈ flagForms) :
    (∃ x y, i = .add x y ∨ i = .sub x y ∨ i = .subn x y) ∨ (∃ x, i = .shr x ∨ i = .shl x) ∨
      ∃ x y n, i = .drw x y n := by
  cases i
  case add x y => exact .inl ⟨x, y, .inl rfl⟩
  case sub x y => exact .inl ⟨x, y, .inr (.inl rfl)⟩
  case subn x y => exact .inl ⟨x, y, .inr (.inr rfl)⟩
  case shr x => exact .inr (.inl ⟨x, .inl rfl⟩)
  case shl x => exact .inr (.inl ⟨x, .inr rfl⟩)
  case drw x y n => exact .inr (.inr ⟨x, y, n, rfl⟩)
  all_goals exact absurd hi (of_decide_eq_false rfl)

/-- Settles O20: by `Ran` a form writes `VF` as its destination, as a flag, or as the last of LOAD's registers. -/
theorem flagWriters : Obligations.FlagWriters := by
  intro i s t h changed
  obtain ⟨cause, info, -, rfl⟩ | ran := exec_cases h
  · exact absurd rfl changed
  obtain ⟨destination, -⟩ | ⟨-, hi⟩ | ⟨x, rfl, hx⟩ := (ran.regs VF).resolve_left changed
  · exact .inl ⟨_, destination, rfl⟩
  · obtain bit | shifted := (exec_VF_of_flagForm h hi).resolve_left changed
    · exact .inr ⟨bit, form_of_flagForms hi⟩
    · exact .inl ⟨_, shifted ▸ List.mem_cons_self, rfl⟩
  · have last : x.toNat = 15 := Nat.le_antisymm (Nat.le_of_lt_succ x.isLt) hx
    exact .inl ⟨_, List.mem_cons_self, by rw [last]⟩

/-! ### The count of draws (R127, log entry 2) -/

theorem skipIf_withDraws (s : State) (d : Nat) (c : Bool) :
    ({ s with draws := d } : State).advance.skipIf c = { s.advance.skipIf c with draws := d } := by cases c <;> rfl

/-- Settles O21: each form's condition, and each of its endings, is the same at another count of draws. -/
theorem allButRndIgnoreTheCountOfDraws : Obligations.AllButRndIgnoreTheCountOfDraws := by
  intro i s t d hi h
  cases i
  case rnd x nn => exact absurd rfl (hi x nn)
  case sei | snei | ser | sner =>
    cases h
    exact congrArg _ (skipIf_withDraws s d _)
  case skp x =>
    obtain ⟨k, hk, rfl⟩ | ⟨beyond, rfl⟩ := exec_skp_cases h
    · exact (exec_skp_of_key (s := { s with draws := d }) k hk).trans (congrArg _ (skipIf_withDraws s d _))
    · exact exec_skp_beyond beyond
  case sknp x =>
    obtain ⟨k, hk, rfl⟩ | ⟨beyond, rfl⟩ := exec_sknp_cases h
    · exact (exec_sknp_of_key (s := { s with draws := d }) k hk).trans (congrArg _ (skipIf_withDraws s d _))
    · exact exec_sknp_beyond beyond
  case waitk x =>
    obtain ⟨k, -, hk, rfl⟩ | ⟨up, rfl⟩ := exec_waitk_cases h
    · obtain ⟨inside, down, least⟩ := (leastPressed_eq_some _ _).mp hk
      exact exec_waitk_of_least ⟨k, inside⟩ down least
    · exact exec_waitk_of_none ((leastPressed_eq_none _).mp up)
  case ret =>
    obtain ⟨pending, inside, rfl⟩ | ⟨empty, rfl⟩ := exec_ret_cases h
    · exact exec_ret_of_pending ⟨s.sp.val - 1, inside⟩ (Nat.succ_pred pending).symm
    · exact exec_ret_of_empty empty
  case call nnn =>
    obtain ⟨room, rfl⟩ | ⟨full, rfl⟩ := exec_call_cases h
    · exact exec_call_of_room (s := { s with draws := d }) nnn room
    · exact exec_call_of_full nnn full
  case bcd x =>
    obtain ⟨fits, rfl⟩ | ⟨beyond, rfl⟩ := exec_bcd_cases h
    · exact exec_bcd_of_fits fits
    · exact exec_bcd_beyond beyond
  case store x =>
    obtain ⟨fits, rfl⟩ | ⟨beyond, rfl⟩ := exec_store_cases h
    · exact exec_store_of_fits fits
    · exact exec_store_beyond beyond
  case load x =>
    obtain ⟨fits, rfl⟩ | ⟨beyond, rfl⟩ := exec_load_cases h
    · exact exec_load_of_fits fits
    · exact exec_load_beyond beyond
  case drw x y n =>
    obtain ⟨fits, rfl⟩ | ⟨rows, beyond, rfl⟩ := exec_drw_cases h
    · exact exec_drw_of_fits fits
    · exact exec_drw_beyond rows beyond
  -- the forms with one ending
  all_goals cases h; rfl

end Sys2Proof.Machine
end

section
/-! SUPPORT. The invariant (10_state.md R24, 60_exceptions.md R240): each clause of `Inv` kept by an executed form, by
the inversion of `exec`; then by a step, by every operation, and in every reachable state. -/

namespace Sys2Proof.Machine

variable {s t : State} {i : Instr}

/-! ### The clauses of the invariant under an executed form -/

/-- Only BCD and STORE write memory, and within their bound. -/
theorem exec_keeps_wf (h : exec i s = .next t) (wf : s.mem.wf) : t.mem.wf := by
  obtain ⟨cause, info, -, rfl⟩ | ran := exec_cases h
  · exact wf
  cases i
  case bcd x =>
    obtain ⟨fits, rfl⟩ | ⟨-, rfl⟩ := exec_bcd_cases h
    · exact Memory.writeBytes_wf _ _ _ (Nat.succ_le_succ fits) wf
    · exact wf
  case store x =>
    obtain ⟨fits, rfl⟩ | ⟨-, rfl⟩ := exec_store_cases h
    · refine Memory.writeBytes_wf _ _ _ ?_ wf
      rw [State.regsUpTo_length]
      exact Nat.succ_le_succ fits
    · exact wf
  all_goals
    rw [ran.memory.resolve_right (of_decide_eq_false rfl)]
    exact wf

/-- R24: from a fetchable address the fetch and a skip reach 4098, a jump 4350, and a return what was pushed. -/
theorem NextPc.toNat_le {a : Word} (h : NextPc s a) (fetchable : s.fetchable)
    (returnBound : ∀ k : Fin 16, k.val < s.sp.val → (s.stack.get k).toNat ≤ 4096) : a.toNat ≤ 4350 := by
  have advanced : ∀ d : Word, d.toNat ≤ 4 → (s.pc + d).toNat ≤ 4350 := fun d hd => by
    rw [BitVec.toNat_add]
    exact (Nat.mod_le _ _).trans (by omega)
  cases h with
  | next => exact advanced 2 (by decide)
  | skip => exact advanced 4 (by decide)
  | wait => exact fetchable.trans (by decide)
  | jump nnn =>
    rw [zextAddr_toNat]
    omega
  | jumpBy b nnn =>
    rw [zextByte_add_zextAddr_toNat]
    omega
  | ret k pending => exact (returnBound k pending).trans (by decide)

/-- R24: CALL pushes an address of at most 4096, RET takes one away, and no other form touches the stack. -/
theorem exec_keeps_returnBound (h : exec i s = .next t) (fetchable : s.fetchable)
    (returnBound : ∀ k : Fin 16, k.val < s.sp.val → (s.stack.get k).toNat ≤ 4096) (k : Fin 16)
    (pending : k.val < t.sp.val) : (t.stack.get k).toNat ≤ 4096 := by
  obtain ⟨cause, info, -, rfl⟩ | ran := exec_cases h
  · exact returnBound k pending
  cases i
  case call nnn =>
    obtain ⟨room, rfl⟩ | ⟨-, rfl⟩ := exec_call_cases h
    · have entry : (s.stack.set s.sp.val (s.pc + 2#16) room).get k =
          if s.sp.val = k.val then s.pc + 2#16 else s.stack.get k := Vector.getElem_set room k.isLt
      rw [entry]
      split_ifs with pushed
      · rw [BitVec.toNat_add]
        exact (Nat.mod_le _ _).trans (Nat.add_le_add_right fetchable 2)
      · exact returnBound k (by change k.val < s.sp.val + 1 at pending; omega)
    · exact returnBound k pending
  case ret =>
    obtain ⟨-, inside, rfl⟩ | ⟨-, rfl⟩ := exec_ret_cases h
    · exact returnBound k (pending.trans_le (Nat.sub_le _ _))
    · exact returnBound k pending
  all_goals
    rw [ran.sp.resolve_right (of_decide_eq_false rfl)] at pending
    rw [ran.stack.resolve_right (of_decide_eq_false rfl)]
    exact returnBound k pending

/-- The highest address of a transfer of at most 16 bytes (R66, R245). -/
theorem State.indexAddr_le (s : State) {k : Nat} (hk : k ≤ 15) : s.indexAddr k ≤ 65550 := by
  have hi := s.i.isLt
  rw [State.indexAddr]
  omega

/-- R240: what a form's fault latches fits the state before the tick. -/
theorem Faults.consistent {cause : Cause} {info : Nat} (h : Faults s i cause info) (fetchable : s.fetchable) :
    (FaultRecord.mk cause info s.pc).consistent s := by
  refine ⟨rfl, ?_⟩
  cases h
  case ret empty => exact ⟨fetchable, empty, rfl⟩
  case call nnn full => exact ⟨fetchable, full, nnn, rfl⟩
  case bcd x beyond => exact ⟨fetchable, beyond, s.indexAddr_le (by decide)⟩
  case store x beyond | load x beyond => exact ⟨fetchable, beyond, s.indexAddr_le (Nat.le_of_lt_succ x.isLt)⟩
  case drw x y n rows beyond => exact ⟨fetchable, beyond, s.indexAddr_le (by omega)⟩
  case skp x beyond | sknp x beyond => exact ⟨fetchable, beyond, Nat.le_of_lt_succ (s.getV x).isLt⟩

/-! ### A step keeps the invariant -/

/-- A fault whose record fits the state before the tick keeps the invariant: it writes the latch alone. -/
theorem Inv.faulted_of_consistent {cause : Cause} {info : Nat} (inv : Inv s)
    (consistent : (FaultRecord.mk cause info s.pc).consistent s) : Inv (faulted s cause info) := by
  refine ⟨inv.memory, inv.pcBound, inv.returnBound, fun f hf => ?_⟩
  cases hf
  exact consistent

theorem Inv.of_exec (inv : Inv s) (running : s.running) (fetchable : s.fetchable) (h : exec i s = .next t) : Inv t := by
  obtain ⟨cause, info, faults, rfl⟩ | ran := exec_cases h
  · exact inv.faulted_of_consistent (faults.consistent fetchable)
  · refine ⟨exec_keeps_wf h inv.memory, ran.target.toNat_le fetchable inv.returnBound,
      exec_keeps_returnBound h fetchable inv.returnBound, fun f hf => ?_⟩
    rw [ran.fault, running] at hf
    cases hf

/-- Settles O17: by what a step can do, a halted tick changes nothing, the faults of fetch and dispatch fit the frozen
state, and an executed form keeps each clause. -/
theorem stepKeepsInvariant : Obligations.StepKeepsInvariant := by
  intro s t inv hstep
  obtain ⟨-, rfl⟩ | ⟨-, beyond, rfl⟩ | ⟨-, fetchable, illegal, rfl⟩ | ⟨i, running, fetchable, -, hexec⟩ :=
    step_cases hstep
  · exact inv
  · exact inv.faulted_of_consistent ⟨rfl, beyond, rfl⟩
  · have word : decode (BitVec.ofNat 16 s.fetchWord.toNat) = none := by rwa [BitVec.ofNat_toNat, BitVec.setWidth_eq]
    exact inv.faulted_of_consistent ⟨rfl, fetchable, s.fetchWord.isLt, word⟩
  · exact inv.of_exec running fetchable hexec

/-! ### Every operation keeps it -/

theorem inv_resetWith (glyphs : GlyphTable) : Inv (State.resetWith glyphs) :=
  ⟨Memory.reset_wf glyphs, show 512 ≤ 4350 by decide, nofun, nofun⟩

/-- Settles O16: no entry is pending and no fault latched; the default table is one of the tables. -/
theorem resetMeetsInvariant : Obligations.ResetMeetsInvariant := ⟨inv_resetWith, inv_resetWith defaultGlyphTable⟩

/-- The invariant does not speak of the count of draws. -/
theorem inv_resetCore (s : State) : Inv (resetCore s) :=
  have reset := inv_resetWith s.mem.glyphs
  ⟨reset.memory, reset.pcBound, reset.returnBound, reset.latch⟩

theorem Inv.after (inv : Inv s) (op : Operation) : Inv (op.after s) := by
  cases op with
  | reset => exact inv_resetCore s
  | load bytes =>
    by_cases fits : bytes.length ≤ 3584
    · rw [after_load_of_fits fits]
      have wf := Memory.writeBytes_wf bytes s.mem 512 (by omega) inv.memory
      exact ⟨wf, inv.pcBound, inv.returnBound, inv.latch⟩
    · rw [after_load_of_long (by omega)]
      exact inv
  | tick =>
    obtain ⟨t, hstep⟩ := everyTickHasANextState s
    rw [after_tick hstep]
    exact stepKeepsInvariant s t inv hstep
  | tickTimers => exact ⟨inv.memory, inv.pcBound, inv.returnBound, inv.latch⟩
  | keyEvent => exact ⟨inv.memory, inv.pcBound, inv.returnBound, inv.latch⟩

/-- Settles O18: the five operations, then the induction over the reachable states. -/
theorem operationsKeepInvariant : Obligations.OperationsKeepInvariant :=
  ⟨fun op _ inv => inv.after op, inv_resetWith,
    fun _ reachable => reachable.induction inv_resetWith fun op _ inv => inv.after op⟩

end Sys2Proof.Machine
end
